-- ==== Sys2Proof/Word.lean ====
section
/-! DEFINITION. The Word of the machine and the reduction of an integer to a Word (spec 00_scope.md R9, R10). -/

namespace Sys2Proof

/-- A Word: "an unsigned integer in [0, 0177777]" (R10), 16 bits, bit 0 the least significant (R9). -/
abbrev Word := BitVec 16

/-- `mask16(v) = v mod 65536`, the non-negative residue (R10). -/
def mask16 (v : Int) : Word := BitVec.ofInt 16 v

end Sys2Proof
end

