-- ==== Sys2Proof/Syntax.lean ====
section
/-! DEFINITION. The instructions as syntax (spec 30_encoding.md R72 to R74): one constructor for each row of
spec/opcode_table.json, with the operands of its format. -/

namespace Sys2Proof

/-- A general register R0 to R7 (10_state.md R20). `r7` is the program counter (R22). -/
inductive Reg where
  | r0 | r1 | r2 | r3 | r4 | r5 | r6 | r7
  deriving DecidableEq, Repr

/-- An addressing mode, the values 0 to 7 of a mode field in order (41_operand_resolver.md R112 to R119). -/
inductive Mode where
  /-- mode 0, `Rn` (R112) -/
  | register
  /-- mode 1, `(Rn)` (R113) -/
  | indirect
  /-- mode 2, `(Rn)+` (R114) -/
  | autoInc
  /-- mode 3, `@(Rn)+` (R115) -/
  | autoIncIndirect
  /-- mode 4, `-(Rn)` (R116) -/
  | autoDec
  /-- mode 5, `@-(Rn)` (R117) -/
  | autoDecIndirect
  /-- mode 6, `X(Rn)` (R118) -/
  | index
  /-- mode 7, `@X(Rn)` (R119) -/
  | indexDeferred
  deriving DecidableEq, Repr

/-- An operand specifier, "the pair (mode, reg)"; every pair is legal (30_encoding.md R73). -/
structure Operand where
  mode : Mode
  reg : Reg
  deriving DecidableEq, Repr

/-- The eleven instructions, in the order of the decode table (30_encoding.md R74). A branch offset is carried as
the number its field stands for: `sext_8(offset8)` (R76) or `zext_6(offset6)` (R77), in words and unscaled. -/
inductive Instr where
  | halt
  | mov (src dst : Operand)
  | cmp (src dst : Operand)
  | add (src dst : Operand)
  | sub (src dst : Operand)
  | sob (reg : Reg) (offset : Nat)
  | br (offset : Int)
  | bne (offset : Int)
  | beq (offset : Int)
  | asr (dst : Operand)
  | asl (dst : Operand)
  deriving DecidableEq, Repr

end Sys2Proof
end

