-- ==== Sys2Proof/WellFormed.lean ====
section
/-! DEFINITION. Which instructions an encoding can hold (spec 30_encoding.md R76, R77, R86). A specifier needs no
check: all modes and registers are legal (R73). -/

namespace Sys2Proof

/-- A branch offset "must be an integer in [-128, 127]" (R86). -/
def branchOffsetOk (offset : Int) : Bool := decide (-128 ≤ offset ∧ offset ≤ 127)

/-- A SOB offset "must be an integer in [0, 63]" (R86). -/
def sobOffsetOk (offset : Nat) : Bool := decide (offset ≤ 63)

/-- The instruction fits its encoding. -/
def Instr.wellFormed : Instr → Bool
  | .halt => true
  | .mov _ _ => true
  | .cmp _ _ => true
  | .add _ _ => true
  | .sub _ _ => true
  | .sob _ offset => sobOffsetOk offset
  | .br offset => branchOffsetOk offset
  | .bne offset => branchOffsetOk offset
  | .beq offset => branchOffsetOk offset
  | .asr _ => true
  | .asl _ => true

end Sys2Proof
end

