-- ==== Sys2Proof/Decode.lean ====
section
/-! DEFINITION. The decoder, a total function of one Word (spec 30_encoding.md R71 to R77, 40_execution_cycle.md
R93, R94), and after it the encoder, written from the formats of R72. Extension words are no part of
the decoder's input: the operand resolver consumes them (R70). -/

namespace Sys2Proof

/-- Why a word is no instruction. -/
inductive DecodeError where
  /-- DECODE_ERROR: the word matches no row of R74 (R80, 47_decode_error.md R200). -/
  | noRow (w : Word)
  deriving DecidableEq, Repr

/-! ## Fields -/

/-- The register a 3-bit field names (10_state.md R20). -/
def Reg.ofBits (b : BitVec 3) : Reg :=
  match b.toNat with
  | 0 => .r0
  | 1 => .r1
  | 2 => .r2
  | 3 => .r3
  | 4 => .r4
  | 5 => .r5
  | 6 => .r6
  | _ => .r7

/-- The mode a 3-bit field names (41_operand_resolver.md R112 to R119). -/
def Mode.ofBits (b : BitVec 3) : Mode :=
  match b.toNat with
  | 0 => .register
  | 1 => .indirect
  | 2 => .autoInc
  | 3 => .autoIncIndirect
  | 4 => .autoDec
  | 5 => .autoDecIndirect
  | 6 => .index
  | _ => .indexDeferred

/-- The source specifier: `srcmode = w[11:9]`, `srcreg = w[8:6]` (R71). -/
def srcOperand (w : Word) : Operand :=
  ⟨Mode.ofBits (w.extractLsb' 9 3), Reg.ofBits (w.extractLsb' 6 3)⟩

/-- The destination specifier: `dstmode = w[5:3]`, `dstreg = w[2:0]` (R71). -/
def dstOperand (w : Word) : Operand :=
  ⟨Mode.ofBits (w.extractLsb' 3 3), Reg.ofBits (w.extractLsb' 0 3)⟩

/-- `sext_8(w[7:0])`, the offset of BR, BNE and BEQ in words (R76, 00_scope.md R11). -/
def branchOffset (w : Word) : Int := (w.extractLsb' 0 8).toInt

/-- `zext_6(w[5:0])`, the offset of SOB in words; unsigned (R77, 90_conflicts.md C2). -/
def sobOffset (w : Word) : Nat := (w.extractLsb' 0 6).toNat

/-! ## The decoder -/

/-- The instruction a word stands for: the rows of R74 in the source's order, first match wins, each by the
source's own predicate. SUB's is "top 4 bits == 016" read as octal (90_conflicts.md C8). -/
def decode (w : Word) : Except DecodeError Instr :=
  if w = 0 then .ok .halt
  else if w.extractLsb' 12 4 = 0o1#4 then .ok (.mov (srcOperand w) (dstOperand w))
  else if w.extractLsb' 12 4 = 0o2#4 then .ok (.cmp (srcOperand w) (dstOperand w))
  else if w.extractLsb' 12 4 = 0o6#4 then .ok (.add (srcOperand w) (dstOperand w))
  else if w.extractLsb' 12 4 = 0o16#4 then .ok (.sub (srcOperand w) (dstOperand w))
  else if w.extractLsb' 9 7 = 0o77#7 then .ok (.sob (Reg.ofBits (w.extractLsb' 6 3)) (sobOffset w))
  else if w.extractLsb' 8 8 = 0o1#8 then .ok (.br (branchOffset w))
  else if w.extractLsb' 8 8 = 0o2#8 then .ok (.bne (branchOffset w))
  else if w.extractLsb' 8 8 = 0o3#8 then .ok (.beq (branchOffset w))
  else if w.extractLsb' 6 10 = 0o62#10 then .ok (.asr (dstOperand w))
  else if w.extractLsb' 6 10 = 0o63#10 then .ok (.asl (dstOperand w))
  else .error (.noRow w)

/-- The instruction the decoder reads from a row's bits `w` as spec/opcode_table.json numbers them: bits 15 to 0 are
the instruction word, bits above `nbits` are 0, and extension words are not decoded (R93). -/
def decodeTableWord (nbits w : Nat) : Option Instr :=
  match decode (BitVec.ofNat 16 (w % 2 ^ nbits)) with
  | .ok i => some i
  | .error _ => none

/-! ## The encoder -/

/-- The 3-bit field of a register. -/
def Reg.bits : Reg → BitVec 3
  | .r0 => 0
  | .r1 => 1
  | .r2 => 2
  | .r3 => 3
  | .r4 => 4
  | .r5 => 5
  | .r6 => 6
  | .r7 => 7

/-- The 3-bit field of a mode. -/
def Mode.bits : Mode → BitVec 3
  | .register => 0
  | .indirect => 1
  | .autoInc => 2
  | .autoIncIndirect => 3
  | .autoDec => 4
  | .autoDecIndirect => 5
  | .index => 6
  | .indexDeferred => 7

/-- Format DOP: opcode 15:12, srcmode 11:9, srcreg 8:6, dstmode 5:3, dstreg 2:0 (R72). -/
def encodeDop (opcode : BitVec 4) (src dst : Operand) : Word :=
  (opcode ++ src.mode.bits ++ src.reg.bits ++ dst.mode.bits ++ dst.reg.bits).cast rfl

/-- Format SOP: opcode 15:6, dstmode 5:3, dstreg 2:0 (R72). -/
def encodeSop (opcode : BitVec 10) (dst : Operand) : Word :=
  (opcode ++ dst.mode.bits ++ dst.reg.bits).cast rfl

/-- Format BR8: opcode 15:8, offset8 7:0 (R72). -/
def encodeBr8 (opcode : BitVec 8) (offset : Int) : Word :=
  (opcode ++ BitVec.ofInt 8 offset).cast rfl

/-- Format SOB6: opcode 15:9, reg 8:6, offset6 5:0 (R72). -/
def encodeSob6 (opcode : BitVec 7) (reg : Reg) (offset : Nat) : Word :=
  (opcode ++ reg.bits ++ BitVec.ofNat 6 offset).cast rfl

/-- The instruction word of a well-formed instruction: each format of R72 with its row's opcode bits (R74). -/
def encode : Instr → Word
  | .halt => 0
  | .mov src dst => encodeDop 0b0001#4 src dst
  | .cmp src dst => encodeDop 0b0010#4 src dst
  | .add src dst => encodeDop 0b0110#4 src dst
  | .sub src dst => encodeDop 0b1110#4 src dst
  | .sob reg offset => encodeSob6 0b0111111#7 reg offset
  | .br offset => encodeBr8 0b00000001#8 offset
  | .bne offset => encodeBr8 0b00000010#8 offset
  | .beq offset => encodeBr8 0b00000011#8 offset
  | .asr dst => encodeSop 0b0000110010#10 dst
  | .asl dst => encodeSop 0b0000110011#10 dst

end Sys2Proof
end

