-- ==== Sys2Proof/Config.lean ====
section
/-! DEFINITION. The fixed parameters of the hardware (spec 00_scope.md R6) and the launch values that
State.reset takes for the parameters the spec leaves open (R7). The hardware has no value that the spec
leaves undefined after an instruction, so there is no free value here. -/

namespace Sys2Proof.Config

/-- MEM_WORDS, the capacity of the word memory (R6, 20_memory.md R50). -/
def memWords : Nat := 32768

/-- START_PC at its default, 0 (R7, 10_state.md R38, D2). -/
def startPc : Word := 0

/-- The Word that State.reset supplies as INIT_GPR for each of R0 to R6.
DESIGN CHOICE, unsafe (log entry 1): the spec states no launch value (D3). -/
def initGpr : Word := 0

/-- The bit that State.reset supplies as INIT_CC for each of N, Z, V and C.
DESIGN CHOICE, unsafe (log entry 2): the spec states no launch value (D4). -/
def initFlag : Bool := false

end Sys2Proof.Config
end

