-- ==== Sys2Proof/Machine/State.lean ====
section
/-! DEFINITION. The state of the block as plain data (spec 10_state.md, 20_memory.md R50), the reasons a step stops,
and the state after reset (10_state.md R38). -/

namespace Sys2Proof.Machine

/-- The register file: eight Words R0 to R7 (R20); `r7` is the PC (R22). No register is hardwired. -/
structure RegFile where
  r0 : Word
  r1 : Word
  r2 : Word
  r3 : Word
  r4 : Word
  r5 : Word
  r6 : Word
  r7 : Word
  deriving DecidableEq, Repr

/-- The status flags, "four independent booleans" (R26). -/
structure Flags where
  n : Bool
  z : Bool
  v : Bool
  c : Bool
  deriving DecidableEq, Repr

/-- The six statistics counters, unbounded natural numbers (R30, D13). -/
structure Counters where
  /-- `cnt.inst`, instructions executed -/
  inst : Nat
  /-- `cnt.ifetch`, instruction words fetched -/
  ifetch : Nat
  /-- `cnt.dread`, data words read -/
  dread : Nat
  /-- `cnt.dwrite`, data words written -/
  dwrite : Nat
  /-- `cnt.br`, branches executed -/
  br : Nat
  /-- `cnt.taken`, branches taken -/
  taken : Nat
  deriving DecidableEq, Repr

/-- One word of memory that holds a value: its word index and the Word (20_memory.md R50). -/
abbrev MemCell := Nat × Word

/-- The word memory `M[0..32767]`: the words that hold a value, by rising word index. A word that is not listed
holds no value (10_state.md R39; log entry 4). Words are not split into bytes (R57; log entry 5). -/
abbrev Memory := List MemCell

/-- The five kinds of access that R211 lets a fatal stop record. -/
inductive AccessKind where
  | instructionFetch
  | indexFetch
  | pointerRead
  | dataRead
  | dataWrite
  deriving DecidableEq, Repr

/-- The cause of a FATAL stop with its information, codes 1 to 5 and 7 of 60_exceptions.md R211. -/
inductive FatalCause where
  /-- code 1: an access of this kind at the odd byte address `a` (20_memory.md R54) -/
  | oddAddress (a : Word) (kind : AccessKind)
  /-- code 2: word index past the capacity; never occurs (20_memory.md R55) -/
  | outOfRange (a : Word)
  /-- code 3: an operand value past 16 bits; never occurs, every value is a Word (R211) -/
  | valueRange (v : Nat)
  /-- code 4: a mode outside 0 to 7; never occurs, the field has 3 bits (R211) -/
  | modeRange (m : Nat)
  /-- code 5: the fetch assertion failed; never occurs, every Word passes (30_encoding.md R82) -/
  | badInstructionWord (w : Word)
  /-- code 7: the step used the memory word at byte address `a`, which holds no value (10_state.md R39) -/
  | uninitRead (a : Word)
  deriving DecidableEq, Repr

/-- `fatal_cause` and `fatal_info`, the status outputs of R212 and R213: the cause, and the address of the
instruction word of the step. -/
structure FatalRecord where
  cause : FatalCause
  ia : Word
  deriving DecidableEq, Repr

/-- The run state (10_state.md R25). The record of a FATAL stop exists exactly in FATAL (R42). -/
inductive RunState where
  | fetching
  | executing
  | halted
  | fatal (record : FatalRecord)
  deriving DecidableEq, Repr

/-- The state of the block and its word memory. -/
structure State where
  /-- R0 to R7 (R20); R7 is the PC (R22) -/
  regs : RegFile
  /-- N, Z, V, C (R26) -/
  flags : Flags
  /-- the run state (R25) -/
  run : RunState
  /-- the statistics counters (R30) -/
  cnt : Counters
  /-- the word memory (20_memory.md R50) -/
  mem : Memory
  /-- `ia`, the address of the instruction word of the step (40_execution_cycle.md R90); every step writes it
  before reading it (log entry 8) -/
  ia : Word
  deriving DecidableEq, Repr

/-- Why the machine stops with a fault: the FATAL stop of 60_exceptions.md R212, under the name of its cause. `left` is
the state at FATAL (R214): its run state is FATAL and holds the record. Each is raised by
`raiseFatal` alone, for an access made by the instruction fetch or by the meaning of MOV, CMP, ADD, SUB, ASR or ASL. -/
inductive Fault where
  /-- FATAL_ODD_ADDRESS: any access at an odd address. Safe: the spec stops there. -/
  | oddAddress (left : State)
  /-- FATAL_OUT_OF_RANGE: checked at every access, raised by none (R55). Safe. -/
  | outOfRange (left : State)
  /-- FATAL_VALUE_RANGE: raised by nothing. Safe. -/
  | valueRange (left : State)
  /-- FATAL_MODE_RANGE: raised by nothing. Safe. -/
  | modeRange (left : State)
  /-- FATAL_BAD_INSTRUCTION_WORD: checked at every instruction fetch, raised by none (R82). Safe. -/
  | badInstructionWord (left : State)
  /-- UNINIT_READ: a fetch or a data read that uses a memory word holding no value. Safe: the hardware goes on
  with a value the spec does not state, the model stops (10_state.md R39). -/
  | uninitRead (left : State)
  deriving DecidableEq, Repr

/-- Why the machine gives no next state without a fault. -/
inductive Refusal where
  /-- An instruction that has no meaning yet; raised by `exec` alone. Safe. -/
  | notModelled (mnemonic : String)
  /-- No step is enabled, because the run state is not FETCHING (40_execution_cycle.md R90, 60_exceptions.md R225);
  raised by `step` alone, with the run state. Safe: HALTED and FATAL are terminal. -/
  | noStepEnabled (run : RunState)
  deriving DecidableEq, Repr

/-- The state after reset (10_state.md R38, 70_reset_and_hazards.md R240) with no image loaded: the PC at START_PC,
counters 0, FETCHING, no memory word given a value. R0 to R6 and the flags hold supplied launch
values (log entries 1 and 2); `ia` is dead here (log entry 8). -/
def State.reset : State where
  regs := ⟨Config.initGpr, Config.initGpr, Config.initGpr, Config.initGpr, Config.initGpr, Config.initGpr,
    Config.initGpr, Config.startPc⟩
  flags := ⟨Config.initFlag, Config.initFlag, Config.initFlag, Config.initFlag⟩
  run := .fetching
  cnt := ⟨0, 0, 0, 0, 0, 0⟩
  mem := []
  ia := 0

end Sys2Proof.Machine
end

