-- ==== Sys2Proof/Machine/Ops.lean ====
section
/-! DEFINITION. The named operations over registers, memory, counters and run state, the FATAL stop, and the start
and the end of a step (spec 20_memory.md, 40_execution_cycle.md R90 to R99, 60_exceptions.md R212). -/

namespace Sys2Proof.Machine

/-! ## Registers -/

/-- `x[r]` (00_scope.md R12). -/
def RegFile.get (f : RegFile) : Reg → Word
  | .r0 => f.r0
  | .r1 => f.r1
  | .r2 => f.r2
  | .r3 => f.r3
  | .r4 => f.r4
  | .r5 => f.r5
  | .r6 => f.r6
  | .r7 => f.r7

/-- `x[r] <- v` (00_scope.md R12). No register is special (10_state.md R20 to R22). -/
def RegFile.set (f : RegFile) (r : Reg) (v : Word) : RegFile :=
  match r with
  | .r0 => { f with r0 := v }
  | .r1 => { f with r1 := v }
  | .r2 => { f with r2 := v }
  | .r3 => { f with r3 := v }
  | .r4 => { f with r4 := v }
  | .r5 => { f with r5 := v }
  | .r6 => { f with r6 := v }
  | .r7 => { f with r7 := v }

/-- `x[r]` of the state. -/
def State.x (s : State) (r : Reg) : Word := s.regs.get r

/-- The PC, "another name for x[7]" (R12, 10_state.md R22). -/
abbrev State.pc (s : State) : Word := s.x .r7

/-! ## Memory -/

/-- Whether a byte address is odd: `a[0] == 1` (20_memory.md R52). -/
def isOdd (a : Word) : Bool := a.getLsbD 0

/-- The index of the word a byte address names: `a / 2` (R51). -/
def wordIndex (a : Word) : Nat := a.toNat / 2

/-- `M[k]`, or no value where word `k` holds none. An unlisted word holds no value (10_state.md R39, D5). -/
def Memory.get : Memory → Nat → Option Word
  | [], _ => none
  | (j, v) :: rest, k => if j = k then some v else Memory.get rest k

/-- `M[k] <- v`, keeping the cells by rising index. -/
def Memory.put : Memory → Nat → Word → Memory
  | [], k, v => [(k, v)]
  | (j, w) :: rest, k, v =>
    if k < j then (k, v) :: (j, w) :: rest
    else if k = j then (k, v) :: rest
    else (j, w) :: Memory.put rest k v

/-- All indices of the list lie from `low` on, rise strictly, and are below the capacity. -/
def Memory.wfFrom (low : Nat) : Memory → Bool
  | [] => true
  | (k, _) :: rest => decide (low ≤ k) && decide (k < Config.memWords) && Memory.wfFrom (k + 1) rest

/-- The canonical form: word indices strictly rising and below the capacity (R50). A listed word holds a value and
an unlisted one holds none, so no entry equals what an unlisted word reads as. -/
def Memory.wf (m : Memory) : Bool := Memory.wfFrom 0 m

/-! ## Updates of one field -/

def State.setX (s : State) (r : Reg) (v : Word) : State := { s with regs := s.regs.set r v }

def State.setFlags (s : State) (f : Flags) : State := { s with flags := f }

def State.setRun (s : State) (r : RunState) : State := { s with run := r }

def State.setMem (s : State) (m : Memory) : State := { s with mem := m }

def State.setIa (s : State) (a : Word) : State := { s with ia := a }

/-- `cnt.inst <- cnt.inst + 1` (40_execution_cycle.md R96). -/
def State.countInst (s : State) : State := { s with cnt := { s.cnt with inst := s.cnt.inst + 1 } }

/-- `cnt.ifetch <- cnt.ifetch + 1` (R97). -/
def State.countIfetch (s : State) : State := { s with cnt := { s.cnt with ifetch := s.cnt.ifetch + 1 } }

/-- `cnt.dread <- cnt.dread + 1` (R98). -/
def State.countDread (s : State) : State := { s with cnt := { s.cnt with dread := s.cnt.dread + 1 } }

/-- `cnt.dwrite <- cnt.dwrite + 1` (R98). -/
def State.countDwrite (s : State) : State := { s with cnt := { s.cnt with dwrite := s.cnt.dwrite + 1 } }

/-- `cnt.br <- cnt.br + 1` (R99). -/
def State.countBr (s : State) : State := { s with cnt := { s.cnt with br := s.cnt.br + 1 } }

/-- `cnt.taken <- cnt.taken + 1` (R99). -/
def State.countTaken (s : State) : State := { s with cnt := { s.cnt with taken := s.cnt.taken + 1 } }

/-! ## Actions

An action runs the spec's pseudocode in the order written (00_scope.md R12). It ends normally with a value and a
state, or at `raise Fatal` with the cause and the state as the failing access left it (60_exceptions.md R214). -/

abbrev Action := EStateM FatalCause State

def readX (r : Reg) : Action Word := fun s => .ok (s.x r) s

/-- The read of flag Z, the only flag an instruction reads (10_state.md R28). -/
def readZ : Action Bool := fun s => .ok s.flags.z s

/-- Apply a state update. -/
def update (f : State → State) : Action Unit := fun s => .ok () (f s)

/-! ## Taking the FATAL stop -/

/-- The fault of a cause, carrying the state left. -/
def FatalCause.fault (cause : FatalCause) (left : State) : Fault :=
  match cause with
  | .oddAddress _ _ => .oddAddress left
  | .outOfRange _ => .outOfRange left
  | .valueRange _ => .valueRange left
  | .modeRange _ => .modeRange left
  | .badInstructionWord _ => .badInstructionWord left
  | .uninitRead _ => .uninitRead left

/-- `raise Fatal(cause, info)`: the run state becomes FATAL with the cause, its information and `ia` recorded, and
nothing else changes (60_exceptions.md R212, R213). No vector, no saved PC, no handler (R220), and
nothing returns from it (R222, R225). -/
def raiseFatal (cause : FatalCause) (s : State) : Host.Outcome State Fault Refusal :=
  .fault (cause.fault (s.setRun (.fatal ⟨cause, s.ia⟩)))

/-- Run the rule of an instruction: its last state is the next state, its `raise Fatal` the FATAL stop. -/
def runRule (rule : Action Unit) (s : State) : Host.Outcome State Fault Refusal :=
  match rule s with
  | .ok _ t => .next t
  | .error cause t => raiseFatal cause t

/-! ## The memory port -/

/-- `MemRead(a, 2)` (20_memory.md R52): the word's content, which may be no value. -/
def memRead (kind : AccessKind) (a : Word) : Action (Option Word) := fun s =>
  if isOdd a then .error (.oddAddress a kind) s
  else if Config.memWords ≤ wordIndex a then .error (.outOfRange a) s
  else .ok (s.mem.get (wordIndex a)) s

/-- `MemWrite(a, 2, v)` (R53). -/
def memWrite (kind : AccessKind) (a v : Word) : Action Unit := fun s =>
  if isOdd a then .error (.oddAddress a kind) s
  else if Config.memWords ≤ wordIndex a then .error (.outOfRange a) s
  else .ok () (s.setMem (s.mem.put (wordIndex a) v))

/-- The use of what a read of byte address `a` returned: UNINIT_READ where it is no value (10_state.md R39). -/
def useValue (a : Word) (content : Option Word) : Action Word := fun s =>
  match content with
  | some v => .ok v s
  | none => .error (.uninitRead a) s

/-- `FetchWord()` (40_execution_cycle.md R92), for the instruction word or an index word. -/
def fetchWord (kind : AccessKind) : Action Word := do
  let pc ← readX .r7
  let content ← memRead kind pc
  let w ← useValue pc content
  update (fun s => s.setX .r7 (pc + 2))
  update State.countIfetch
  pure w

/-- `DataRead(a)` (41_operand_resolver.md R111), a value read or a pointer read. -/
def dataRead (kind : AccessKind) (a : Word) : Action Word := do
  let content ← memRead kind a
  let v ← useValue a content
  update State.countDread
  pure v

/-- `DataRead(a)` whose value is discarded: the address is checked and the read is counted, and a word that holds no
value raises nothing (R122, 10_state.md R39; log entry 12). -/
def dataReadDiscarded (a : Word) : Action Unit := do
  let _ ← memRead .dataRead a
  update State.countDread

/-- `DataWrite(a, v)` (R111). -/
def dataWrite (a v : Word) : Action Unit := do
  memWrite .dataWrite a v
  update State.countDwrite

/-! ## The start and the end of a step -/

/-- The start of a step (40_execution_cycle.md R90): `ia <- pc`, the fetch, the assertion `w < 0200000`
(30_encoding.md R82), and EXECUTING. -/
def beginStep : Action Word := do
  update (fun s => s.setIa s.pc)
  let w ← fetchWord .instructionFetch
  if w.toNat < 0o200000 then
    update (fun s => s.setRun .executing)
    pure w
  else
    throw (.badInstructionWord w)

/-- The end of a step (R90): `if run == EXECUTING: run <- FETCHING`. -/
def resumeFetching (s : State) : State :=
  match s.run with
  | .executing => s.setRun .fetching
  | .fetching => s
  | .halted => s
  | .fatal _ => s

/-- What a step does after the rule of an instruction: it counts the instruction (R96) and ends. -/
def endInstruction (o : Host.Outcome State Fault Refusal) : Host.Outcome State Fault Refusal :=
  match o with
  | .next s => .next (resumeFetching s.countInst)
  | .fault f => .fault f
  | .refused r => .refused r

/-- What a step does after the decode-error rule: it counts nothing (R96) and ends. -/
def endDecodeError (o : Host.Outcome State Fault Refusal) : Host.Outcome State Fault Refusal :=
  match o with
  | .next s => .next (resumeFetching s)
  | .fault f => .fault f
  | .refused r => .refused r

end Sys2Proof.Machine
end

