-- ==== Sys2Proof/Machine/DecodeError.lean ====
section
/-! DEFINITION. The rule of a word that decodes as no instruction (spec 47_decode_error.md). -/

namespace Sys2Proof.Machine

/-- The decode-error rule (R200): no register, flag, memory word, counter or run state changes. The report goes to the
trace output (Machine/Output.lean). -/
def execDecodeError (s : State) : Host.Outcome State Fault Refusal := .next s

end Sys2Proof.Machine
end

