-- ==== Sys2Proof/Machine/Flags.lean ====
section
/-! DEFINITION. The ALU: a 16-bit result and the flags, computed on integers and then reduced (spec
44_arithmetic.md R150 to R153, 46_shifts.md R190, R191, 43_move.md R145). -/

namespace Sys2Proof.Machine

/-- `sign(v)`, bit 15 (00_scope.md R9). -/
def sign (v : Word) : Bool := v.getLsbD 15

/-- `bit16(v)`, bit 16 of the infinite two's-complement representation of `v` (00_scope.md R10). -/
def bit16 (v : Int) : Bool := decide (v / 65536 % 2 = 1)

/-- A 16-bit result with the flags computed from it. -/
structure AluResult where
  r : Word
  flags : Flags
  deriving DecidableEq, Repr

/-- `AluAdd(s, d)` (R151). -/
def aluAdd (s d : Word) : AluResult :=
  let wide : Int := (s.toNat : Int) + (d.toNat : Int)
  let r := mask16 wide
  { r := r
    flags :=
      { n := sign r
        z := decide (r = 0)
        v := (sign s == sign d) && (sign r != sign s)
        c := bit16 wide } }

/-- `AluSub(a, b)`, `a - b` (R152): true signed overflow and borrow, for CMP and SUB alike (90_conflicts.md C4). -/
def aluSub (a b : Word) : AluResult :=
  let wide : Int := (a.toNat : Int) - (b.toNat : Int)
  let r := mask16 wide
  { r := r
    flags :=
      { n := sign r
        z := decide (r = 0)
        v := (sign a != sign b) && (sign r == sign b)
        c := bit16 wide } }

/-- The flags both shifts derive from the result and the bit shifted out: `V <- N xor C` (R190, R191). -/
def shiftFlags (r : Word) (out : Bool) : Flags :=
  { n := sign r, z := decide (r = 0), v := sign r ^^ out, c := out }

/-- ASR's `r <- v[15] ++ v[15:1]`, `C <- v[0]` (R190). -/
def aluAsr (v : Word) : AluResult :=
  let r : Word := v.extractLsb' 15 1 ++ v.extractLsb' 1 15
  { r := r, flags := shiftFlags r (v.getLsbD 0) }

/-- ASL's `r <- mask16(2 * v)`, `C <- v[15]` (R191). -/
def aluAsl (v : Word) : AluResult :=
  let r := mask16 (2 * (v.toNat : Int))
  { r := r, flags := shiftFlags r (v.getLsbD 15) }

/-- MOV's flags: "N = sign(result); Z = (result==0); V = 0; C unchanged" (R145, 90_conflicts.md C3). -/
def movFlags (result : Word) (old : Flags) : Flags :=
  { n := sign result, z := decide (result = 0), v := false, c := old.c }

end Sys2Proof.Machine
end

