-- ==== Sys2Proof/Machine/Operands.lean ====
section
/-! DEFINITION. The operand resolver (spec 41_operand_resolver.md): the eight addressing modes with their side effects,
and the two commit paths. -/

namespace Sys2Proof.Machine

/-- The part of an addressing phrase a commit uses: `mode`, `reg` and `addr` (10_state.md R35). -/
structure Target where
  mode : Mode
  reg : Reg
  addr : Word
  deriving DecidableEq, Repr

/-- An addressing phrase "{mode, reg, addr, value}" (10_state.md R35). It lives inside one step (R36). -/
structure Phrase extends Target where
  value : Word
  deriving DecidableEq, Repr

/-- What a mode does up to `p.addr`: the autodecrement of modes 4 and 5, the index word of modes 6 and 7, the pointer
read of modes 3, 5 and 7 (R113 to R119). Mode 0 has the address 0 (R112; nothing reads it). -/
def resolveAddr (o : Operand) : Action Word :=
  match o.mode with
  | .register => pure 0
  | .indirect => readX o.reg
  | .autoInc => readX o.reg
  | .autoIncIndirect => do
    let pointer ← readX o.reg
    dataRead .pointerRead pointer
  | .autoDec => do
    update (fun s => s.setX o.reg (s.x o.reg - 2))
    readX o.reg
  | .autoDecIndirect => do
    update (fun s => s.setX o.reg (s.x o.reg - 2))
    let pointer ← readX o.reg
    dataRead .pointerRead pointer
  | .index => do
    let X ← fetchWord .indexFetch
    let base ← readX o.reg
    pure (base + X)
  | .indexDeferred => do
    let X ← fetchWord .indexFetch
    let base ← readX o.reg
    dataRead .pointerRead (base + X)

/-- What a mode does after the value read: the autoincrement of modes 2 and 3, by 2 for every register (R114, R115). -/
def postIncrement (o : Operand) : Action Unit :=
  match o.mode with
  | .autoInc => update (fun s => s.setX o.reg (s.x o.reg + 2))
  | .autoIncIndirect => update (fun s => s.setX o.reg (s.x o.reg + 2))
  | .register => pure ()
  | .indirect => pure ()
  | .autoDec => pure ()
  | .autoDecIndirect => pure ()
  | .index => pure ()
  | .indexDeferred => pure ()

/-- The read of `p.value`: the register in mode 0, one counted data read in modes 1 to 7 (R112 to R119). -/
def readValue (o : Operand) (addr : Word) : Action Word :=
  match o.mode with
  | .register => readX o.reg
  | .indirect => dataRead .dataRead addr
  | .autoInc => dataRead .dataRead addr
  | .autoIncIndirect => dataRead .dataRead addr
  | .autoDec => dataRead .dataRead addr
  | .autoDecIndirect => dataRead .dataRead addr
  | .index => dataRead .dataRead addr
  | .indexDeferred => dataRead .dataRead addr

/-- The read of a `p.value` that is discarded: nothing in mode 0, one counted data read that needs no value in modes 1
to 7 (R122, 10_state.md R39). -/
def discardValue (o : Operand) (addr : Word) : Action Unit :=
  match o.mode with
  | .register => pure ()
  | .indirect => dataReadDiscarded addr
  | .autoInc => dataReadDiscarded addr
  | .autoIncIndirect => dataReadDiscarded addr
  | .autoDec => dataReadDiscarded addr
  | .autoDecIndirect => dataReadDiscarded addr
  | .index => dataReadDiscarded addr
  | .indexDeferred => dataReadDiscarded addr

/-- `Resolve(mode, r)` (R121): the address, the value, then the autoincrement, in the order of R112 to R119. -/
def resolve (o : Operand) : Action Phrase := do
  let addr ← resolveAddr o
  let value ← readValue o addr
  postIncrement o
  pure ⟨⟨o.mode, o.reg, addr⟩, value⟩

/-- The resolution of put_result: all of `Resolve` with `p.value` discarded (R122). -/
def resolveTarget (o : Operand) : Action Target := do
  let addr ← resolveAddr o
  discardValue o addr
  postIncrement o
  pure ⟨o.mode, o.reg, addr⟩

/-- `Commit(p, v)`: mode 0 writes the register, any other mode writes memory at `addr` (R122). -/
def commit (t : Target) (v : Word) : Action Unit :=
  match t.mode with
  | .register => update (fun s => s.setX t.reg v)
  | .indirect => dataWrite t.addr v
  | .autoInc => dataWrite t.addr v
  | .autoIncIndirect => dataWrite t.addr v
  | .autoDec => dataWrite t.addr v
  | .autoDecIndirect => dataWrite t.addr v
  | .index => dataWrite t.addr v
  | .indexDeferred => dataWrite t.addr v

/-- `PutResult(mode, r, v)`: resolves, then commits (R122). -/
def putResult (o : Operand) (v : Word) : Action Unit := do
  let t ← resolveTarget o
  commit t v

/-- `UpdateOperand(p, v)`: commits through the phrase already resolved (R123). -/
def updateOperand (p : Phrase) (v : Word) : Action Unit := commit p.toTarget v

end Sys2Proof.Machine
end

