-- ==== Sys2Proof/Machine/Arithmetic.lean ====
section
/-! DEFINITION. CMP, ADD and SUB (spec 44_arithmetic.md R155 to R157). The source is resolved before the
destination (41_operand_resolver.md R120). -/

namespace Sys2Proof.Machine

/-- CMP (R155): the flags of `src - dst`; nothing is committed. -/
def cmpRule (src dst : Operand) : Action Unit := do
  let s ← resolve src
  let d ← resolve dst
  let a := aluSub s.value d.value
  update (fun t => t.setFlags a.flags)

/-- ADD (R156): `dst <- src + dst` through the phrase resolved once (41_operand_resolver.md R123). -/
def addRule (src dst : Operand) : Action Unit := do
  let s ← resolve src
  let d ← resolve dst
  let a := aluAdd s.value d.value
  update (fun t => t.setFlags a.flags)
  updateOperand d a.r

/-- SUB (R157): `dst <- dst - src`, the reverse order of CMP. -/
def subRule (src dst : Operand) : Action Unit := do
  let s ← resolve src
  let d ← resolve dst
  let a := aluSub d.value s.value
  update (fun t => t.setFlags a.flags)
  updateOperand d a.r

def execCmp (src dst : Operand) (s : State) : Host.Outcome State Fault Refusal :=
  runRule (cmpRule src dst) s

def execAdd (src dst : Operand) (s : State) : Host.Outcome State Fault Refusal :=
  runRule (addRule src dst) s

def execSub (src dst : Operand) (s : State) : Host.Outcome State Fault Refusal :=
  runRule (subRule src dst) s

end Sys2Proof.Machine
end

