-- ==== Sys2Proof/Machine/Branches.lean ====
section
/-! DEFINITION. SOB, BR, BNE and BEQ (spec 45_branches.md). The PC already stands behind the branch word. -/

namespace Sys2Proof.Machine

/-- `BranchTo()` (R171): `pc <- mask16(pc + 2 * offset)`, and the branch counts as taken. -/
def branchTo (offset : Int) : Action Unit := do
  update (fun s => s.setX .r7 (mask16 ((s.pc.toNat : Int) + 2 * offset)))
  update State.countTaken

/-- SOB (R170): the decrement, then the backward branch unless the register became 0. R7 is decremented like any
other register, and the branch is then taken from the decremented PC. -/
def sobRule (reg : Reg) (offset : Nat) : Action Unit := do
  update (fun s => s.setX reg (mask16 (((s.x reg).toNat : Int) - 1)))
  update State.countBr
  let v ← readX reg
  if v ≠ 0 then branchTo (-(offset : Int)) else pure ()

/-- BR (R175): always taken. -/
def brRule (offset : Int) : Action Unit := do
  update State.countBr
  branchTo offset

/-- BNE (R176): taken iff `Z == 0`. -/
def bneRule (offset : Int) : Action Unit := do
  update State.countBr
  let z ← readZ
  if z = false then branchTo offset else pure ()

/-- BEQ (R177): taken iff `Z == 1`. -/
def beqRule (offset : Int) : Action Unit := do
  update State.countBr
  let z ← readZ
  if z = true then branchTo offset else pure ()

def execSob (reg : Reg) (offset : Nat) (s : State) : Host.Outcome State Fault Refusal :=
  runRule (sobRule reg offset) s

def execBr (offset : Int) (s : State) : Host.Outcome State Fault Refusal :=
  runRule (brRule offset) s

def execBne (offset : Int) (s : State) : Host.Outcome State Fault Refusal :=
  runRule (bneRule offset) s

def execBeq (offset : Int) (s : State) : Host.Outcome State Fault Refusal :=
  runRule (beqRule offset) s

end Sys2Proof.Machine
end

