-- ==== Sys2Proof/Machine/Halt.lean ====
section
/-! DEFINITION. HALT (spec 42_halt.md). -/

namespace Sys2Proof.Machine

/-- `stop HALTED` (R140). -/
def execHalt (s : State) : Host.Outcome State Fault Refusal :=
  runRule (update (fun t => t.setRun .halted)) s

end Sys2Proof.Machine
end

