-- ==== Sys2Proof/Machine/Move.lean ====
section
/-! DEFINITION. MOV (spec 43_move.md). -/

namespace Sys2Proof.Machine

/-- MOV (R145): the destination is resolved and committed by put_result, then N, Z and V are written. -/
def movRule (src dst : Operand) : Action Unit := do
  let s ← resolve src
  let result := s.value
  putResult dst result
  update (fun t => t.setFlags (movFlags result t.flags))

def execMov (src dst : Operand) (s : State) : Host.Outcome State Fault Refusal :=
  runRule (movRule src dst) s

end Sys2Proof.Machine
end

