-- ==== Sys2Proof/Machine/Shifts.lean ====
section
/-! DEFINITION. ASR and ASL, shifts by one bit (spec 46_shifts.md). The result goes through the phrase the operand was
read by (R192). -/

namespace Sys2Proof.Machine

/-- ASR (R190). -/
def asrRule (dst : Operand) : Action Unit := do
  let d ← resolve dst
  let a := aluAsr d.value
  update (fun t => t.setFlags a.flags)
  updateOperand d a.r

/-- ASL (R191). -/
def aslRule (dst : Operand) : Action Unit := do
  let d ← resolve dst
  let a := aluAsl d.value
  update (fun t => t.setFlags a.flags)
  updateOperand d a.r

def execAsr (dst : Operand) (s : State) : Host.Outcome State Fault Refusal :=
  runRule (asrRule dst) s

def execAsl (dst : Operand) (s : State) : Host.Outcome State Fault Refusal :=
  runRule (aslRule dst) s

end Sys2Proof.Machine
end

