-- ==== Sys2Proof/Machine/Dispatch.lean ====
section
/-! DEFINITION. The dispatch of an instruction to its meaning (spec 40_execution_cycle.md R94). -/

namespace Sys2Proof.Machine

/-- The rule of an instruction, run on the state after the fetch of its word. -/
def exec (i : Instr) (s : State) : Host.Outcome State Fault Refusal :=
  match i with
  | .halt => Sys2Proof.Machine.execHalt s
  | .mov src dst => Sys2Proof.Machine.execMov src dst s
  | .cmp src dst => Sys2Proof.Machine.execCmp src dst s
  | .add src dst => Sys2Proof.Machine.execAdd src dst s
  | .sub src dst => Sys2Proof.Machine.execSub src dst s
  | .sob reg offset => Sys2Proof.Machine.execSob reg offset s
  | .br offset => Sys2Proof.Machine.execBr offset s
  | .bne offset => Sys2Proof.Machine.execBne offset s
  | .beq offset => Sys2Proof.Machine.execBeq offset s
  | .asr dst => Sys2Proof.Machine.execAsr dst s
  | .asl dst => Sys2Proof.Machine.execAsl dst s

end Sys2Proof.Machine
end

