-- ==== Sys2Proof/Machine/Step.lean ====
section
/-! DEFINITION. One step of the machine (spec 40_execution_cycle.md R90). -/

namespace Sys2Proof.Machine

/-- `Step()` (R90): enabled only in FETCHING. It fetches the word, decodes it, runs its rule and ends. -/
def step (s : State) : Host.Outcome State Fault Refusal :=
  match s.run with
  | .fetching =>
    match beginStep s with
    | .error cause t => raiseFatal cause t
    | .ok w t =>
      match decode w with
      | .ok i => endInstruction (exec i t)
      | .error _ => endDecodeError (execDecodeError t)
  | .executing => .refused (.noStepEnabled .executing)
  | .halted => .refused (.noStepEnabled .halted)
  | .fatal record => .refused (.noStepEnabled (.fatal record))

/-- The state with the instruction word `w` (bits above `nbits` are 0) at the PC and two words of 0 after it, so that a
step from a FETCHING state with an even PC fetches it. Nothing else changes. -/
def State.withFetchWord (s : State) (nbits w : Nat) : State :=
  s.setMem
    (((s.mem.put (wordIndex s.pc) (BitVec.ofNat 16 (w % 2 ^ nbits))).put (wordIndex (s.pc + 2)) 0).put
      (wordIndex (s.pc + 4)) 0)

end Sys2Proof.Machine
end

