-- ==== Sys2Proof/Machine/Launch.lean ====
section
/-! DEFINITION. The launch, the block's only reset, with every parameter the spec leaves open (spec
70_reset_and_hazards.md R240 to R243, 00_scope.md R7). State.reset is the launch with the values of
Config and no image. -/

namespace Sys2Proof.Machine

/-- The launch parameters (00_scope.md R7). INIT_GPR and INIT_CC supply a value for every register and flag (log
entries 1 and 2); `initMem` supplies values for words the image does not fill, the others hold none. -/
structure Launch where
  startPc : Word
  r0 : Word
  r1 : Word
  r2 : Word
  r3 : Word
  r4 : Word
  r5 : Word
  r6 : Word
  flags : Flags
  image : List Word
  initMem : List MemCell
  deriving DecidableEq, Repr

/-- The launch behind State.reset. -/
def Launch.default : Launch where
  startPc := Config.startPc
  r0 := Config.initGpr
  r1 := Config.initGpr
  r2 := Config.initGpr
  r3 := Config.initGpr
  r4 := Config.initGpr
  r5 := Config.initGpr
  r6 := Config.initGpr
  flags := ⟨Config.initFlag, Config.initFlag, Config.initFlag, Config.initFlag⟩
  image := []
  initMem := []

/-- Put supplied words into memory, a later one over an earlier one. -/
def supplyWords : List MemCell → Memory → Memory
  | [], m => m
  | (k, v) :: rest, m => supplyWords rest (m.put k v)

/-- Put the image's words at word indices `k`, `k + 1`, ... (R243). -/
def placeImage : Nat → List Word → Memory → Memory
  | _, [], m => m
  | k, v :: rest, m => placeImage (k + 1) rest (m.put k v)

/-- Whether the block takes the launch: at most 32768 words of image, and supplied words inside the memory (R243, D17). -/
def Launch.accepted (p : Launch) : Bool :=
  decide (p.image.length ≤ Config.memWords) && p.initMem.all (fun c => decide (c.1 < Config.memWords))

/-- The state a launch leaves (R240, 10_state.md R38), or none where it is refused (D17). -/
def Launch.start (p : Launch) : Option State :=
  if p.accepted then
    some
      { regs := ⟨p.r0, p.r1, p.r2, p.r3, p.r4, p.r5, p.r6, p.startPc⟩
        flags := p.flags
        run := .fetching
        cnt := ⟨0, 0, 0, 0, 0, 0⟩
        mem := placeImage 0 p.image (supplyWords p.initMem [])
        ia := 0 }
  else none

end Sys2Proof.Machine
end

