-- ==== Sys2Proof/Machine/Output.lean ====
section
/-! DEFINITION. The outputs of the block (spec 10_state.md R42 to R44) and the events of a step (60_exceptions.md R211,
R215). They are functions of the state: an output changes nothing (R44). The counter outputs are the
fields of State.cnt (R43), the register and run-state outputs those of State (R42). -/

namespace Sys2Proof.Machine

/-- `CC = N ++ Z ++ V ++ C`, N in bit 3 (R29). -/
def Flags.cc (f : Flags) : BitVec 4 :=
  BitVec.ofBool f.n ++ BitVec.ofBool f.z ++ BitVec.ofBool f.v ++ BitVec.ofBool f.c

/-- The flag output (R42). -/
def State.cc (s : State) : BitVec 4 := s.flags.cc

/-- The state left by a fault (60_exceptions.md R214). -/
def Fault.left : Fault → State
  | .oddAddress left => left
  | .outOfRange left => left
  | .valueRange left => left
  | .modeRange left => left
  | .badInstructionWord left => left
  | .uninitRead left => left

/-- `fatal_cause` and `fatal_info` with `ia`, present exactly in FATAL (R42). -/
def State.fatalRecord (s : State) : Option FatalRecord :=
  match s.run with
  | .fatal record => some record
  | .fetching => none
  | .executing => none
  | .halted => none

/-- The code of a fatal cause (60_exceptions.md R211). -/
def FatalCause.code : FatalCause → Nat
  | .oddAddress _ _ => 1
  | .outOfRange _ => 2
  | .valueRange _ => 3
  | .modeRange _ => 4
  | .badInstructionWord _ => 5
  | .uninitRead _ => 7

/-- An event with the information it records (60_exceptions.md R211). -/
inductive Event where
  /-- HALT, with the address of the HALT word -/
  | halt (ia : Word)
  /-- a FATAL stop -/
  | fatal (record : FatalRecord)
  /-- DECODE_ERROR, with the word and its address -/
  | decodeError (w ia : Word)
  deriving DecidableEq, Repr

/-- The event's code (R211). -/
def Event.code : Event → Nat
  | .halt _ => 0
  | .fatal record => record.cause.code
  | .decodeError _ _ => 6

/-- The event that a step from `s` raises, if any; it is at most one (60_exceptions.md R215). -/
def stepEvent (s : State) : Option Event :=
  match step s, beginStep s with
  | .fault f, _ => f.left.fatalRecord.map Event.fatal
  | .next _, .ok w t =>
    match decode w with
    | .ok .halt => some (.halt t.ia)
    | .ok _ => none
    | .error _ => some (.decodeError w t.ia)
  | .next _, .error _ _ => none
  | .refused _, _ => none

/-- The mnemonic of an instruction (30_encoding.md R74). -/
def mnemonic : Instr → String
  | .halt => "HALT"
  | .mov _ _ => "MOV"
  | .cmp _ _ => "CMP"
  | .add _ _ => "ADD"
  | .sub _ _ => "SUB"
  | .sob _ _ => "SOB"
  | .br _ => "BR"
  | .bne _ => "BNE"
  | .beq _ => "BEQ"
  | .asr _ => "ASR"
  | .asl _ => "ASL"

/-- A resolved phrase in the trace. `value` is none for MOV's discarded pre-read of a word that holds no value. -/
structure TracePhrase where
  target : Target
  value : Option Word
  deriving DecidableEq, Repr

/-- The trace event of a step (R44). -/
structure TraceEvent where
  ia : Word
  w : Word
  instruction : String
  phrases : List TracePhrase
  cc : BitVec 4
  deriving DecidableEq, Repr

/-- The phrase of a full resolution. -/
def tracePhrase (p : Phrase) : TracePhrase := ⟨p.toTarget, some p.value⟩

/-- The phrase of MOV's destination, with what its discarded read found. -/
def traceTarget (t : Target) (s : State) : TracePhrase :=
  match t.mode with
  | .register => ⟨t, some (s.x t.reg)⟩
  | .indirect => ⟨t, s.mem.get (wordIndex t.addr)⟩
  | .autoInc => ⟨t, s.mem.get (wordIndex t.addr)⟩
  | .autoIncIndirect => ⟨t, s.mem.get (wordIndex t.addr)⟩
  | .autoDec => ⟨t, s.mem.get (wordIndex t.addr)⟩
  | .autoDecIndirect => ⟨t, s.mem.get (wordIndex t.addr)⟩
  | .index => ⟨t, s.mem.get (wordIndex t.addr)⟩
  | .indexDeferred => ⟨t, s.mem.get (wordIndex t.addr)⟩

def readTarget (t : Target) : Action TracePhrase := fun s => .ok (traceTarget t s) s

/-- The phrases of a source resolved before a destination. -/
def twoPhrases (src dst : Operand) : Action (List TracePhrase) := do
  let p ← resolve src
  let q ← resolve dst
  pure [tracePhrase p, tracePhrase q]

/-- The phrases an instruction resolves, from the state its rule starts in (R35: two, one or none). -/
def tracePhrases (i : Instr) : Action (List TracePhrase) :=
  match i with
  | .mov src dst => do
    let p ← resolve src
    let t ← resolveTarget dst
    let q ← readTarget t
    pure [tracePhrase p, q]
  | .cmp src dst => twoPhrases src dst
  | .add src dst => twoPhrases src dst
  | .sub src dst => twoPhrases src dst
  | .asr dst => do
    let p ← resolve dst
    pure [tracePhrase p]
  | .asl dst => do
    let p ← resolve dst
    pure [tracePhrase p]
  | .halt => pure []
  | .sob _ _ => pure []
  | .br _ => pure []
  | .bne _ => pure []
  | .beq _ => pure []

/-- The trace event a step from `s` emits, if it reaches its end (R44, 40_execution_cycle.md R90). -/
def traceEvent (s : State) : Option TraceEvent :=
  match step s, beginStep s with
  | .next t, .ok w u =>
    match decode w with
    | .ok i =>
      match tracePhrases i u with
      | .ok phrases _ => some ⟨u.ia, w, mnemonic i, phrases, t.cc⟩
      | .error _ _ => none
    | .error _ => some ⟨u.ia, w, "DECODE_ERROR", [], t.cc⟩
  | .next _, .error _ _ => none
  | .fault _, _ => none
  | .refused _, _ => none

end Sys2Proof.Machine
end

