-- ==== Sys2Proof/Safety.lean ====
section
/-! DEFINITION. What counts as a safe run, and the terms in which claims speak of operands: the mode table of spec
41_operand_resolver.md R112 to R119 written as closed forms over one state, without the resolver's actions. -/

namespace Sys2Proof

/-! ## What an instruction and a mode consist of -/

/-- How many index words a mode consumes (R118, R119). -/
def Mode.indexWords : Mode → Nat
  | .register => 0
  | .indirect => 0
  | .autoInc => 0
  | .autoIncIndirect => 0
  | .autoDec => 0
  | .autoDecIndirect => 0
  | .index => 1
  | .indexDeferred => 1

/-- How many data reads a resolution makes (R124): the pointer read of modes 3, 5 and 7 and the value read of modes 1
to 7. -/
def Mode.dataReads : Mode → Nat
  | .register => 0
  | .indirect => 1
  | .autoInc => 1
  | .autoIncIndirect => 2
  | .autoDec => 1
  | .autoDecIndirect => 2
  | .index => 1
  | .indexDeferred => 2

/-- The operand specifiers an instruction resolves, in order (41_operand_resolver.md R120). -/
def Instr.operands : Instr → List Operand
  | .halt => []
  | .mov src dst => [src, dst]
  | .cmp src dst => [src, dst]
  | .add src dst => [src, dst]
  | .sub src dst => [src, dst]
  | .sob _ _ => []
  | .br _ => []
  | .bne _ => []
  | .beq _ => []
  | .asr dst => [dst]
  | .asl dst => [dst]

/-- The destination an instruction writes, if it has one. -/
def Instr.destination : Instr → Option Operand
  | .halt => none
  | .mov _ dst => some dst
  | .cmp _ _ => none
  | .add _ dst => some dst
  | .sub _ dst => some dst
  | .sob _ _ => none
  | .br _ => none
  | .bne _ => none
  | .beq _ => none
  | .asr dst => some dst
  | .asl dst => some dst

/-- Whether an instruction counts as a branch (40_execution_cycle.md R99). -/
def Instr.isBranch : Instr → Bool
  | .halt => false
  | .mov _ _ => false
  | .cmp _ _ => false
  | .add _ _ => false
  | .sub _ _ => false
  | .sob _ _ => true
  | .br _ => true
  | .bne _ => true
  | .beq _ => true
  | .asr _ => false
  | .asl _ => false

/-- The operand's mode steps its register by 2: modes 2 to 5 (41_operand_resolver.md R114 to R117). -/
def Operand.steps (o : Operand) (r : Reg) : Prop :=
  (o.mode = .autoInc ∨ o.mode = .autoIncIndirect ∨ o.mode = .autoDec ∨ o.mode = .autoDecIndirect) ∧ o.reg = r

/-- The operand has an extension word: mode 6 or 7, or mode 2 or 3 on R7 (30_encoding.md R79). -/
def Operand.hasExtension (o : Operand) : Bool :=
  match o.mode with
  | .register => false
  | .indirect => false
  | .autoInc => decide (o.reg = .r7)
  | .autoIncIndirect => decide (o.reg = .r7)
  | .autoDec => false
  | .autoDecIndirect => false
  | .index => true
  | .indexDeferred => true

/-- The length of an instruction in words, where R79 gives one. -/
def Instr.lengthWords (i : Instr) : Nat := 1 + i.operands.countP Operand.hasExtension

end Sys2Proof

namespace Sys2Proof.Machine

/-! ## Safe runs -/

/-- A run of `n` steps from `s` meets no fault. A run that halts earlier is safe (40_execution_cycle.md R100: HALTED is
the normal end, FATAL never is). -/
def safeFor : Nat → State → Bool
  | 0, _ => true
  | n + 1, s =>
    match step s with
    | .next t => safeFor n t
    | .fault _ => false
    | .refused _ => decide (s.run = .halted)

/-- Between steps the run state is FETCHING, HALTED or FATAL (10_state.md R25). -/
def RunState.betweenSteps : RunState → Bool
  | .fetching => true
  | .executing => false
  | .halted => true
  | .fatal _ => true

/-- The invariant of the machine between steps: memory in its canonical form, and a run state that can be seen there. -/
def State.inv (s : State) : Prop := s.mem.wf = true ∧ s.run.betweenSteps = true

/-! ## Operands in closed form -/

/-- The word that a use at byte address `a` gets: none at an odd address, none where memory holds no value. -/
def State.wordAt (s : State) (a : Word) : Option Word :=
  if isOdd a then none else s.mem.get (wordIndex a)

/-- The register the index modes add to, after the index word has been consumed (R118). -/
def State.indexBase (s : State) (r : Reg) : Word := if r = .r7 then s.pc + 2 else s.x r

/-- The address of an operand (R112 to R119), none where a read on the way to it stops. -/
def State.operandAddr (s : State) (o : Operand) : Option Word :=
  match o.mode with
  | .register => some 0
  | .indirect => some (s.x o.reg)
  | .autoInc => some (s.x o.reg)
  | .autoIncIndirect => s.wordAt (s.x o.reg)
  | .autoDec => some (s.x o.reg - 2)
  | .autoDecIndirect => s.wordAt (s.x o.reg - 2)
  | .index => (s.wordAt s.pc).map (fun X => s.indexBase o.reg + X)
  | .indexDeferred => (s.wordAt s.pc).bind (fun X => s.wordAt (s.indexBase o.reg + X))

/-- The value of an operand, none where a read of its resolution stops. -/
def State.operandValue (s : State) (o : Operand) : Option Word :=
  if o.mode = .register then some (s.x o.reg) else (s.operandAddr o).bind s.wordAt

/-- The address a result goes to, none where put_result stops before its commit: no value is needed there (R122). -/
def State.storeAddr (s : State) (o : Operand) : Option Word :=
  if o.mode = .register then some 0
  else (s.operandAddr o).bind (fun a => if isOdd a then none else some a)

/-- The registers after a resolution: the PC past an index word, or the register stepped by 2. -/
def State.operandRegs (s : State) (o : Operand) : RegFile :=
  match o.mode with
  | .register => s.regs
  | .indirect => s.regs
  | .autoInc => s.regs.set o.reg (s.x o.reg + 2)
  | .autoIncIndirect => s.regs.set o.reg (s.x o.reg + 2)
  | .autoDec => s.regs.set o.reg (s.x o.reg - 2)
  | .autoDecIndirect => s.regs.set o.reg (s.x o.reg - 2)
  | .index => s.regs.set .r7 (s.pc + 2)
  | .indexDeferred => s.regs.set .r7 (s.pc + 2)

/-- The state after a resolution that stops nowhere. -/
def State.afterOperand (s : State) (o : Operand) : State :=
  { s with
    regs := s.operandRegs o
    cnt :=
      { s.cnt with
        ifetch := s.cnt.ifetch + o.mode.indexWords
        dread := s.cnt.dread + o.mode.dataReads } }

/-- The phrases of operands resolved one after the other (R120): each operand with its address and its value. The value
is none where a read finds none, which only MOV's discarded pre-read goes past (R122). -/
def State.operandTrace (s : State) : List Operand → List (Operand × Option Word × Option Word)
  | [] => []
  | o :: rest => (o, s.operandAddr o, s.operandValue o) :: State.operandTrace (s.afterOperand o) rest

/-- The state after a commit of `v` to the operand at address `a` (R122). -/
def State.afterStore (s : State) (o : Operand) (a v : Word) : State :=
  if o.mode = .register then { s with regs := s.regs.set o.reg v }
  else
    { s with
      mem := s.mem.put (wordIndex a) v
      cnt := { s.cnt with dwrite := s.cnt.dwrite + 1 } }

/-- The state an instruction's rule starts in: the word at the PC fetched, EXECUTING (40_execution_cycle.md R90, R92). -/
def State.fetched (s : State) : State :=
  { s with
    regs := s.regs.set .r7 (s.pc + 2)
    run := .executing
    cnt := { s.cnt with ifetch := s.cnt.ifetch + 1 }
    ia := s.pc }

/-- The instruction at the PC: none where the fetch stops or the word is no instruction. -/
def State.current (s : State) : Option Instr :=
  match s.wordAt s.pc with
  | none => none
  | some w =>
    match decode w with
    | .ok i => some i
    | .error _ => none

/-- Whether a branch is taken from the state its rule starts in: SOB unless its register becomes 0, BR always, BNE and
BEQ by Z (45_branches.md R170 to R177). -/
def State.takes (s : State) (i : Instr) : Bool :=
  match i with
  | .halt => false
  | .mov _ _ => false
  | .cmp _ _ => false
  | .add _ _ => false
  | .sub _ _ => false
  | .sob reg _ => decide (s.x reg ≠ 1)
  | .br _ => true
  | .bne _ => !s.flags.z
  | .beq _ => s.flags.z
  | .asr _ => false
  | .asl _ => false

end Sys2Proof.Machine
end

