-- ==== Sys2Proof/Certificates/Slice0/Obligations.lean ====
section
/-! DEFINITION. The statements for the provers, each a rule of the spec or a consequence of several. The operand terms
(operandValue, storeAddr, afterOperand, afterStore) are the closed forms of Safety.lean. Every register and flag holds a
value (log entries 1 and 2), so no statement has a case in which the read of one stops. -/

open Sys2Proof Sys2Proof.Machine

/-! ## Encoding -/

/-- Words of 95_test_vectors.md decode as it says (30_encoding.md R72, R74, R80). -/
def Obligations.WrittenOutWordsDecode : Prop :=
  decode 0o000000 = .ok .halt ∧
  decode 0o012304 = .ok (.mov ⟨.autoInc, .r3⟩ ⟨.register, .r4⟩) ∧
  decode 0o012767 = .ok (.mov ⟨.autoInc, .r7⟩ ⟨.index, .r7⟩) ∧
  decode 0o020001 = .ok (.cmp ⟨.register, .r0⟩ ⟨.register, .r1⟩) ∧
  decode 0o060011 = .ok (.add ⟨.register, .r0⟩ ⟨.indirect, .r1⟩) ∧
  decode 0o160001 = .ok (.sub ⟨.register, .r0⟩ ⟨.register, .r1⟩) ∧
  decode 0o077102 = .ok (.sob .r1 2) ∧
  decode 0o000777 = .ok (.br (-1)) ∧
  decode 0o001003 = .ok (.bne 3) ∧
  decode 0o001775 = .ok (.beq (-3)) ∧
  decode 0o006200 = .ok (.asr ⟨.register, .r0⟩) ∧
  decode 0o006322 = .ok (.asl ⟨.autoInc, .r2⟩) ∧
  decode 0o005000 = .error (.noRow 0o005000)

/-- Decoding the word of a well-formed instruction gives the instruction back, with every operand (R72, R74). -/
def Obligations.DecodeOfEncodeIsTheInstruction : Prop :=
  ∀ i : Instr, i.wellFormed = true → decode (encode i) = .ok i

/-- A word has one reading: what it decodes to is well-formed and is encoded as that word again (R72, R74). -/
def Obligations.EncodeOfDecodeIsTheWord : Prop :=
  ∀ (w : Word) (i : Instr), decode w = .ok i → i.wellFormed = true ∧ encode i = w

/-- The decode table of R74: a word decodes to a row's instruction exactly when `(w & mask) == match`, and to no
instruction exactly when no row matches. -/
def Obligations.DecodeFollowsMaskAndMatch : Prop :=
  ∀ w : Word,
    (decode w = .ok .halt ↔ w &&& 0o177777 = 0o000000) ∧
    ((∃ src dst, decode w = .ok (.mov src dst)) ↔ w &&& 0o170000 = 0o010000) ∧
    ((∃ src dst, decode w = .ok (.cmp src dst)) ↔ w &&& 0o170000 = 0o020000) ∧
    ((∃ src dst, decode w = .ok (.add src dst)) ↔ w &&& 0o170000 = 0o060000) ∧
    ((∃ src dst, decode w = .ok (.sub src dst)) ↔ w &&& 0o170000 = 0o160000) ∧
    ((∃ reg offset, decode w = .ok (.sob reg offset)) ↔ w &&& 0o177000 = 0o077000) ∧
    ((∃ offset, decode w = .ok (.br offset)) ↔ w &&& 0o177400 = 0o000400) ∧
    ((∃ offset, decode w = .ok (.bne offset)) ↔ w &&& 0o177400 = 0o001000) ∧
    ((∃ offset, decode w = .ok (.beq offset)) ↔ w &&& 0o177400 = 0o001400) ∧
    ((∃ dst, decode w = .ok (.asr dst)) ↔ w &&& 0o177700 = 0o006200) ∧
    ((∃ dst, decode w = .ok (.asl dst)) ↔ w &&& 0o177700 = 0o006300) ∧
    (decode w = .error (.noRow w) ↔
      w &&& 0o177777 ≠ 0o000000 ∧ w &&& 0o170000 ≠ 0o010000 ∧ w &&& 0o170000 ≠ 0o020000 ∧
      w &&& 0o170000 ≠ 0o060000 ∧ w &&& 0o170000 ≠ 0o160000 ∧ w &&& 0o177000 ≠ 0o077000 ∧
      w &&& 0o177400 ≠ 0o000400 ∧ w &&& 0o177400 ≠ 0o001000 ∧ w &&& 0o177400 ≠ 0o001400 ∧
      w &&& 0o177700 ≠ 0o006200 ∧ w &&& 0o177700 ≠ 0o006300)

/-- The words that are no instruction are those of the seven ranges of R80. -/
def Obligations.UndefinedWordsAreTheSevenRanges : Prop :=
  ∀ w : Word,
    decode w = .error (.noRow w) ↔
      (0o000001 ≤ w.toNat ∧ w.toNat ≤ 0o000377) ∨ (0o002000 ≤ w.toNat ∧ w.toNat ≤ 0o006177) ∨
      (0o006400 ≤ w.toNat ∧ w.toNat ≤ 0o007777) ∨ (0o030000 ≤ w.toNat ∧ w.toNat ≤ 0o057777) ∨
      (0o070000 ≤ w.toNat ∧ w.toNat ≤ 0o076777) ∨ (0o100000 ≤ w.toNat ∧ w.toNat ≤ 0o157777) ∨
      (0o170000 ≤ w.toNat ∧ w.toNat ≤ 0o177777)

/-! ## Memory and fetch -/

/-- MemRead (20_memory.md R52): an odd address stops it, any other returns the word; no state changes, no counter. -/
def Obligations.MemReadChecksTheAddressAndReturnsTheWord : Prop :=
  ∀ (kind : AccessKind) (a : Word) (s : State),
    (isOdd a = true → memRead kind a s = .error (.oddAddress a kind) s) ∧
    (isOdd a = false → memRead kind a s = .ok (s.mem.get (a.toNat / 2)) s)

/-- MemWrite (20_memory.md R53): an odd address stops it; any other word written is read back unchanged, and a read
at every other even address answers as before. -/
def Obligations.MemWriteRoundTripsAndWritesOneWord : Prop :=
  ∀ (kind : AccessKind) (a v : Word) (s : State),
    (isOdd a = true → memWrite kind a v s = .error (.oddAddress a kind) s) ∧
    (isOdd a = false → ∃ t, memWrite kind a v s = .ok () t ∧ memRead kind a t = .ok (some v) t ∧
      (∀ b, isOdd b = false → b ≠ a → t.mem.get (wordIndex b) = s.mem.get (wordIndex b)) ∧
      t = { s with mem := t.mem })

/-- FetchWord (40_execution_cycle.md R92): the word at the PC, the PC advanced by 2, `cnt.ifetch` by 1; an odd PC, or a
word there that holds no value (10_state.md R39), stops it with nothing changed. -/
def Obligations.FetchWordAdvancesThePc : Prop :=
  ∀ (kind : AccessKind) (s : State) (w : Word),
    (isOdd s.pc = true → fetchWord kind s = .error (.oddAddress s.pc kind) s) ∧
    (isOdd s.pc = false → s.mem.get (wordIndex s.pc) = none → fetchWord kind s = .error (.uninitRead s.pc) s) ∧
    (isOdd s.pc = false → s.mem.get (wordIndex s.pc) = some w → fetchWord kind s = .ok w
      { s with regs := { s.regs with r7 := s.regs.r7 + 2 }
               cnt := { s.cnt with ifetch := s.cnt.ifetch + 1 } })

/-! ## The operand resolver -/

/-- Modes 0 to 5 (41_operand_resolver.md R112 to R117): address, value, register change and data reads. -/
def Obligations.ResolverFollowsTheModeTable : Prop :=
  ∀ (r : Reg) (s : State) (a v : Word),
    (resolve ⟨.register, r⟩ s = .ok ⟨⟨.register, r, 0⟩, s.x r⟩ s) ∧
    (s.wordAt (s.x r) = some v →
      resolve ⟨.indirect, r⟩ s = .ok ⟨⟨.indirect, r, s.x r⟩, v⟩ s.countDread) ∧
    (s.wordAt (s.x r) = some v →
      resolve ⟨.autoInc, r⟩ s = .ok ⟨⟨.autoInc, r, s.x r⟩, v⟩ (s.countDread.setX r (s.x r + 2))) ∧
    (s.wordAt (s.x r) = some a → s.wordAt a = some v →
      resolve ⟨.autoIncIndirect, r⟩ s =
        .ok ⟨⟨.autoIncIndirect, r, a⟩, v⟩ (s.countDread.countDread.setX r (s.x r + 2))) ∧
    (s.wordAt (s.x r - 2) = some v →
      resolve ⟨.autoDec, r⟩ s = .ok ⟨⟨.autoDec, r, s.x r - 2⟩, v⟩ (s.countDread.setX r (s.x r - 2))) ∧
    (s.wordAt (s.x r - 2) = some a → s.wordAt a = some v →
      resolve ⟨.autoDecIndirect, r⟩ s =
        .ok ⟨⟨.autoDecIndirect, r, a⟩, v⟩ (s.countDread.countDread.setX r (s.x r - 2)))

/-- Modes 6 and 7 (R118, R119): the index word at the PC is consumed, and the base is the register after that. That the
index word is the word at the PC is the spec's decision D7 (log entry 19). -/
def Obligations.IndexModesConsumeTheWordAtThePc : Prop :=
  ∀ (r : Reg) (s : State) (X a v : Word),
    (s.wordAt s.pc = some X → s.wordAt ((s.setX .r7 (s.pc + 2)).x r + X) = some v →
      resolve ⟨.index, r⟩ s =
        .ok ⟨⟨.index, r, (s.setX .r7 (s.pc + 2)).x r + X⟩, v⟩
          (s.countIfetch.countDread.setX .r7 (s.pc + 2))) ∧
    (s.wordAt s.pc = some X → s.wordAt ((s.setX .r7 (s.pc + 2)).x r + X) = some a → s.wordAt a = some v →
      resolve ⟨.indexDeferred, r⟩ s =
        .ok ⟨⟨.indexDeferred, r, a⟩, v⟩
          (s.countIfetch.countDread.countDread.setX .r7 (s.pc + 2)))

/-- R127: "resolving an operand in mode 0 never touches Word Memory and never changes any register", and modes 2 to 5
"always change exactly the addressed register by ±2", masked to 16 bits. -/
def Obligations.ModesChangeOnlyTheirRegister : Prop :=
  ∀ (o : Operand) (s t : State) (p : Phrase), resolve o s = .ok p t →
    (o.mode = .register → t = s) ∧
    (o.mode = .autoInc ∨ o.mode = .autoIncIndirect →
      t.x o.reg = s.x o.reg + 2 ∧ ∀ q, q ≠ o.reg → t.x q = s.x q) ∧
    (o.mode = .autoDec ∨ o.mode = .autoDecIndirect →
      t.x o.reg = s.x o.reg - 2 ∧ ∀ q, q ≠ o.reg → t.x q = s.x q)

/-- The access an odd-address stop records, and the state it leaves (60_exceptions.md R213, R214): a value read, a
pointer read, the value read behind a pointer, an index fetch, the reads behind an index word. put_result stops at an
odd address exactly where and as `Resolve` does, in every mode; a write checked alone stops as a write. -/
def Obligations.OddAddressStopsNameTheAccess : Prop :=
  ∀ (r : Reg) (s : State) (a X v : Word),
    (isOdd (s.x r) = true →
      resolve ⟨.indirect, r⟩ s = .error (.oddAddress (s.x r) .dataRead) s ∧
      resolve ⟨.autoInc, r⟩ s = .error (.oddAddress (s.x r) .dataRead) s ∧
      resolve ⟨.autoIncIndirect, r⟩ s = .error (.oddAddress (s.x r) .pointerRead) s ∧
      resolve ⟨.autoDec, r⟩ s =
        .error (.oddAddress (s.x r - 2) .dataRead) (s.setX r (s.x r - 2)) ∧
      resolve ⟨.autoDecIndirect, r⟩ s =
        .error (.oddAddress (s.x r - 2) .pointerRead) (s.setX r (s.x r - 2)) ∧
      dataWrite (s.x r) v s = .error (.oddAddress (s.x r) .dataWrite) s) ∧
    (s.wordAt (s.x r) = some a → isOdd a = true →
      resolve ⟨.autoIncIndirect, r⟩ s = .error (.oddAddress a .dataRead) s.countDread) ∧
    (s.wordAt (s.x r - 2) = some a → isOdd a = true →
      resolve ⟨.autoDecIndirect, r⟩ s = .error (.oddAddress a .dataRead) (s.setX r (s.x r - 2)).countDread) ∧
    (isOdd s.pc = true →
      resolve ⟨.index, r⟩ s = .error (.oddAddress s.pc .indexFetch) s ∧
      resolve ⟨.indexDeferred, r⟩ s = .error (.oddAddress s.pc .indexFetch) s) ∧
    (s.wordAt s.pc = some X → isOdd (s.indexBase r + X) = true →
      resolve ⟨.index, r⟩ s =
        .error (.oddAddress (s.indexBase r + X) .dataRead) (s.setX .r7 (s.pc + 2)).countIfetch ∧
      resolve ⟨.indexDeferred, r⟩ s =
        .error (.oddAddress (s.indexBase r + X) .pointerRead) (s.setX .r7 (s.pc + 2)).countIfetch) ∧
    (s.wordAt s.pc = some X → s.wordAt (s.indexBase r + X) = some a → isOdd a = true →
      resolve ⟨.indexDeferred, r⟩ s =
        .error (.oddAddress a .dataRead) (s.setX .r7 (s.pc + 2)).countIfetch.countDread) ∧
    (∀ (o : Operand) (kind : AccessKind) (t : State),
      putResult o v s = .error (.oddAddress a kind) t ↔ resolve o s = .error (.oddAddress a kind) t)

/-- A value read that finds no value stops as UNINIT_READ, and put_result's discarded read does not (10_state.md R39,
41_operand_resolver.md R122). -/
def Obligations.PreReadOfADestinationNeedsNoValue : Prop :=
  ∀ (r : Reg) (s : State) (v : Word), isOdd (s.x r) = false → s.mem.get (wordIndex (s.x r)) = none →
    resolve ⟨.indirect, r⟩ s = .error (.uninitRead (s.x r)) s ∧
    putResult ⟨.indirect, r⟩ v s =
      .ok () (s.countDread.setMem (s.mem.put (wordIndex (s.x r)) v)).countDwrite

/-- With one register in both specifiers the destination sees the source's side effects. The spec derives this (R128)
from its decision D6 that the source is resolved first (log entry 19). -/
def Obligations.DestinationSeesTheSourcesSideEffects : Prop :=
  ∀ (r : Reg) (s : State) (u v : Word),
    (s.wordAt (s.x r) = some v →
      ∃ t, exec (.mov ⟨.autoInc, r⟩ ⟨.autoInc, r⟩) s = .next t ∧ t.x r = s.x r + 4 ∧
        t.mem = s.mem.put (wordIndex (s.x r + 2)) v) ∧
    (isOdd (s.x r) = false →
      ∃ t, exec (.mov ⟨.register, r⟩ ⟨.autoInc, r⟩) s = .next t ∧ t.x r = s.x r + 2 ∧
        t.mem = s.mem.put (wordIndex (s.x r)) (s.x r)) ∧
    (s.wordAt (s.x r) = some v →
      ∃ t, exec (.add ⟨.autoInc, r⟩ ⟨.register, r⟩) s = .next t ∧ t.x r = v + (s.x r + 2) ∧ t.mem = s.mem) ∧
    (s.wordAt (s.x r - 2) = some v → s.wordAt (s.x r - 4) = some u →
      ∃ t, exec (.cmp ⟨.autoDec, r⟩ ⟨.autoDec, r⟩) s = .next t ∧ t.x r = s.x r - 4 ∧
        t.flags = (aluSub v u).flags ∧ t.mem = s.mem)

/-! ## The ALU -/

/-- AluAdd (44_arithmetic.md R151): V is the signed sum leaving [-32768, 32767], C is `s + d >= 65536`. -/
def Obligations.AddFlagsAreSignedOverflowAndCarry : Prop :=
  ∀ s d : Word,
    (aluAdd s d).r = s + d ∧
    (aluAdd s d).flags.n = (s + d).msb ∧
    ((aluAdd s d).flags.z = true ↔ s + d = 0) ∧
    ((aluAdd s d).flags.v = true ↔ s.toInt + d.toInt < -32768 ∨ 32767 < s.toInt + d.toInt) ∧
    ((aluAdd s d).flags.c = true ↔ 65536 ≤ s.toNat + d.toNat)

/-- AluSub (R152): V is the signed difference leaving [-32768, 32767], C is `a < b` unsigned. -/
def Obligations.SubFlagsAreSignedOverflowAndBorrow : Prop :=
  ∀ a b : Word,
    (aluSub a b).r = a - b ∧
    (aluSub a b).flags.n = (a - b).msb ∧
    ((aluSub a b).flags.z = true ↔ a = b) ∧
    ((aluSub a b).flags.v = true ↔ a.toInt - b.toInt < -32768 ∨ 32767 < a.toInt - b.toInt) ∧
    ((aluSub a b).flags.c = true ↔ a.toNat < b.toNat)

/-- The shifts as arithmetic (46_shifts.md R190, R191): ASR halves the signed value rounding down; ASL doubles it,
with V exactly when bits 15 and 14 of the operand differ, which is when the signed doubling overflows. -/
def Obligations.ShiftsHalveAndDoubleTheSignedValue : Prop :=
  ∀ v : Word,
    (aluAsr v).r.toInt = v.toInt / 2 ∧
    (aluAsr v).flags.n = v.msb ∧
    ((aluAsr v).flags.c = true ↔ v.toNat % 2 = 1) ∧
    ((aluAsl v).flags.v = true ↔ v.getLsbD 15 ≠ v.getLsbD 14) ∧
    ((aluAsl v).flags.v = true ↔ 2 * v.toInt < -32768 ∨ 32767 < 2 * v.toInt) ∧
    ((aluAsl v).flags.v = false → (aluAsl v).r.toInt = 2 * v.toInt) ∧
    ((aluAsl v).flags.c = true ↔ 65536 ≤ 2 * v.toNat)

/-! ## Results: each instruction completes, and where the operand instructions stop -/

/-- HALT (42_halt.md R140): the run state becomes HALTED and nothing else changes. -/
def Obligations.HaltStopsTheRun : Prop :=
  ∀ s : State, exec .halt s = .next { s with run := .halted }

/-- MOV (43_move.md R145): the source value is put into the destination; N and Z follow it, V is 0, C is kept. It stops
exactly where a read of its operands stops. -/
def Obligations.MovStoresTheSourceValue : Prop :=
  ∀ (src dst : Operand) (s : State) (a v : Word),
    (s.operandValue src = some v → (s.afterOperand src).storeAddr dst = some a →
      exec (.mov src dst) s = .next
        ((((s.afterOperand src).afterOperand dst).afterStore dst a v).setFlags
          ⟨v.getLsbD 15, decide (v = 0), false, s.flags.c⟩)) ∧
    (s.operandValue src = none ∨ (s.afterOperand src).storeAddr dst = none →
      ∃ f, exec (.mov src dst) s = .fault f)

/-- CMP (44_arithmetic.md R155): the flags of `src - dst`; nothing is written. It stops exactly where a read stops. -/
def Obligations.CmpSetsTheFlagsOfTheDifference : Prop :=
  ∀ (src dst : Operand) (s : State) (u v : Word),
    (s.operandValue src = some v → (s.afterOperand src).operandValue dst = some u →
      exec (.cmp src dst) s =
        .next (((s.afterOperand src).afterOperand dst).setFlags (aluSub v u).flags)) ∧
    (s.operandValue src = none ∨ (s.afterOperand src).operandValue dst = none →
      ∃ f, exec (.cmp src dst) s = .fault f)

/-- ADD (R156): `dst <- src + dst` with the flags of the addition. It stops exactly where a read stops. -/
def Obligations.AddStoresTheSum : Prop :=
  ∀ (src dst : Operand) (s : State) (a u v : Word),
    (s.operandValue src = some v → (s.afterOperand src).operandAddr dst = some a →
      (s.afterOperand src).operandValue dst = some u →
      exec (.add src dst) s = .next
        ((((s.afterOperand src).afterOperand dst).setFlags (aluAdd v u).flags).afterStore dst a (v + u))) ∧
    (s.operandValue src = none ∨ (s.afterOperand src).operandValue dst = none →
      ∃ f, exec (.add src dst) s = .fault f)

/-- SUB (R157): `dst <- dst - src` with the flags of the subtraction. It stops exactly where a read stops. -/
def Obligations.SubStoresTheDifference : Prop :=
  ∀ (src dst : Operand) (s : State) (a u v : Word),
    (s.operandValue src = some v → (s.afterOperand src).operandAddr dst = some a →
      (s.afterOperand src).operandValue dst = some u →
      exec (.sub src dst) s = .next
        ((((s.afterOperand src).afterOperand dst).setFlags (aluSub u v).flags).afterStore dst a (u - v))) ∧
    (s.operandValue src = none ∨ (s.afterOperand src).operandValue dst = none →
      ∃ f, exec (.sub src dst) s = .fault f)

/-- ASR (46_shifts.md R190): the arithmetic shift right by one, C the bit shifted out, V = N xor C. -/
def Obligations.AsrShiftsRightKeepingTheSign : Prop :=
  ∀ (dst : Operand) (s : State) (a v : Word),
    (s.operandAddr dst = some a → s.operandValue dst = some v →
      exec (.asr dst) s = .next
        (((s.afterOperand dst).setFlags
          ⟨v.msb, decide (v.sshiftRight 1 = 0), v.msb ^^ v.getLsbD 0, v.getLsbD 0⟩).afterStore dst a
            (v.sshiftRight 1))) ∧
    (s.operandValue dst = none → ∃ f, exec (.asr dst) s = .fault f)

/-- ASL (R191): the shift left by one, C the bit shifted out, V = N xor C. -/
def Obligations.AslShiftsLeft : Prop :=
  ∀ (dst : Operand) (s : State) (a v : Word),
    (s.operandAddr dst = some a → s.operandValue dst = some v →
      exec (.asl dst) s = .next
        (((s.afterOperand dst).setFlags
          ⟨v.getLsbD 14, decide (v <<< 1 = 0), v.getLsbD 14 ^^ v.getLsbD 15, v.getLsbD 15⟩).afterStore dst a
            (v <<< 1))) ∧
    (s.operandValue dst = none → ∃ f, exec (.asl dst) s = .fault f)

/-- SOB (45_branches.md R170): the register less 1, and unless it became 0 the PC goes back by twice the offset. On R7
the branch starts from the decremented PC. The register always holds a value (log entry 1). -/
def Obligations.SobDecrementsAndBranchesBack : Prop :=
  ∀ (r : Reg) (offset : Nat) (s : State),
    (s.x r - 1 = 0 → exec (.sob r offset) s = .next (s.setX r 0).countBr) ∧
    (s.x r - 1 ≠ 0 → exec (.sob r offset) s = .next
      ((s.setX r (s.x r - 1)).setX .r7
        ((s.setX r (s.x r - 1)).pc - BitVec.ofNat 16 (2 * offset))).countBr.countTaken)

/-- BR (R171, R172, R175): always taken, the PC moved by twice the signed offset. -/
def Obligations.BrMovesThePc : Prop :=
  ∀ (offset : Int) (s : State),
    exec (.br offset) s = .next (s.setX .r7 (s.pc + BitVec.ofInt 16 (2 * offset))).countBr.countTaken

/-- BNE (R176): taken exactly when Z is 0. Z always holds a value (log entry 2). -/
def Obligations.BneBranchesWhenZIsClear : Prop :=
  ∀ (offset : Int) (s : State),
    (s.flags.z = false → exec (.bne offset) s =
      .next (s.setX .r7 (s.pc + BitVec.ofInt 16 (2 * offset))).countBr.countTaken) ∧
    (s.flags.z = true → exec (.bne offset) s = .next s.countBr)

/-- BEQ (R177): taken exactly when Z is 1. Z always holds a value (log entry 2). -/
def Obligations.BeqBranchesWhenZIsSet : Prop :=
  ∀ (offset : Int) (s : State),
    (s.flags.z = true → exec (.beq offset) s =
      .next (s.setX .r7 (s.pc + BitVec.ofInt 16 (2 * offset))).countBr.countTaken) ∧
    (s.flags.z = false → exec (.beq offset) s = .next s.countBr)

/-- Branch displacements are even, so BR, BNE and BEQ keep the parity of the PC (10_state.md R24, 45_branches.md
R178). -/
def Obligations.BranchesKeepThePcParity : Prop :=
  ∀ (offset : Int) (s t : State) (i : Instr), (i = .br offset ∨ i = .bne offset ∨ i = .beq offset) →
    exec i s = .next t → isOdd t.pc = isOdd s.pc

/-! ## Frames -/

/-- What MOV, ADD and SUB leave unchanged. A memory destination is stored at the address `resolveAddr` gives in the
state after the source was read. -/
def Obligations.MovAddSubFrame : Prop :=
  ∀ (src dst : Operand) (s t : State) (i : Instr), (i = .mov src dst ∨ i = .add src dst ∨ i = .sub src dst) →
    exec i s = .next t →
      (∀ r, r ≠ .r7 → ¬(dst.mode = .register ∧ dst.reg = r) → ¬src.steps r → ¬dst.steps r → t.x r = s.x r) ∧
      (i = .mov src dst → t.flags.c = s.flags.c) ∧
      t.run = s.run ∧ t.ia = s.ia ∧ t.cnt.inst = s.cnt.inst ∧ t.cnt.br = s.cnt.br ∧
      t.cnt.taken = s.cnt.taken ∧
      (dst.mode = .register → ∀ k, t.mem.get k = s.mem.get k) ∧
      (dst.mode ≠ .register → ∀ p u a w, resolve src s = .ok p u → resolveAddr dst u = .ok a w →
        ∀ k, k ≠ wordIndex a → t.mem.get k = s.mem.get k)

/-- What ASR and ASL leave unchanged. -/
def Obligations.ShiftFrame : Prop :=
  ∀ (dst : Operand) (s t : State) (i : Instr), (i = .asr dst ∨ i = .asl dst) → exec i s = .next t →
    (∀ r, r ≠ .r7 → ¬(dst.mode = .register ∧ dst.reg = r) → ¬dst.steps r → t.x r = s.x r) ∧
    t.run = s.run ∧ t.ia = s.ia ∧ t.cnt.inst = s.cnt.inst ∧ t.cnt.br = s.cnt.br ∧ t.cnt.taken = s.cnt.taken ∧
    (dst.mode = .register → ∀ k, t.mem.get k = s.mem.get k) ∧
    (dst.mode ≠ .register → ∀ a w, resolveAddr dst s = .ok a w →
      ∀ k, k ≠ wordIndex a → t.mem.get k = s.mem.get k)

/-- What CMP leaves unchanged: it "never mutates its operands", and memory stays whole (R155). -/
def Obligations.CmpFrame : Prop :=
  ∀ (src dst : Operand) (s t : State), exec (.cmp src dst) s = .next t →
    (∀ r, r ≠ .r7 → ¬src.steps r → ¬dst.steps r → t.x r = s.x r) ∧
    t.run = s.run ∧ t.ia = s.ia ∧ t.cnt.inst = s.cnt.inst ∧ t.cnt.dwrite = s.cnt.dwrite ∧
    t.cnt.br = s.cnt.br ∧ t.cnt.taken = s.cnt.taken ∧ ∀ k, t.mem.get k = s.mem.get k

/-- What HALT, SOB, BR, BNE and BEQ leave unchanged: flags, memory, data counters, every register but SOB's own and
the PC (42_halt.md R140, 45_branches.md R170 to R177). -/
def Obligations.ControlInstructionsFrame : Prop :=
  ∀ (reg : Reg) (n : Nat) (offset : Int) (s t : State) (i : Instr),
    (i = .halt ∨ i = .sob reg n ∨ i = .br offset ∨ i = .bne offset ∨ i = .beq offset) → exec i s = .next t →
      (∀ r, r ≠ .r7 → ¬(i = .sob reg n ∧ r = reg) → t.x r = s.x r) ∧
      (i = .halt → t.pc = s.pc ∧ t.cnt = s.cnt) ∧
      (i ≠ .halt → t.run = s.run) ∧
      t.flags = s.flags ∧ t.ia = s.ia ∧ t.cnt.inst = s.cnt.inst ∧ t.cnt.ifetch = s.cnt.ifetch ∧
      t.cnt.dread = s.cnt.dread ∧ t.cnt.dwrite = s.cnt.dwrite ∧ ∀ k, t.mem.get k = s.mem.get k

/-! ## The step -/

/-- A step runs the decoded instruction (40_execution_cycle.md R90): from FETCHING, with a word at the PC that decodes,
it is the instruction's rule on the fetched state, counted, and back in FETCHING unless it halted. -/
def Obligations.StepRunsTheDecodedInstruction : Prop :=
  ∀ (s t : State) (w : Word) (i : Instr) (f : Fault),
    s.run = .fetching → s.wordAt s.pc = some w → decode w = .ok i →
      (exec i s.fetched = .next t → step s = .next
        { t with cnt := { t.cnt with inst := t.cnt.inst + 1 }
                 run := if t.run = .executing then .fetching else t.run }) ∧
      (exec i s.fetched = .fault f → step s = .fault f)

/-- A word that is no instruction (47_decode_error.md R200): the PC past it, one fetch counted, nothing else changed,
and the report in the trace. -/
def Obligations.DecodeErrorIsSkipped : Prop :=
  ∀ (s : State) (w : Word), s.run = .fetching → s.wordAt s.pc = some w → decode w = .error (.noRow w) →
    step s = .next
      { s with regs := s.regs.set .r7 (s.pc + 2)
               cnt := { s.cnt with ifetch := s.cnt.ifetch + 1 }
               ia := s.pc } ∧
    traceEvent s = some ⟨s.pc, w, "DECODE_ERROR", [], s.cc⟩

/-- R141: "the exact comparison `w == 0` of the whole word: no other word halts". -/
def Obligations.OnlyTheZeroWordHalts : Prop :=
  ∀ s t : State, s.run = .fetching → step s = .next t → (t.run = .halted ↔ s.wordAt s.pc = some 0)

/-- No step is enabled outside FETCHING (R90, 60_exceptions.md R225). The answer's name is the model's (log entry 7). -/
def Obligations.NoStepOutsideFetching : Prop :=
  ∀ s : State, s.run ≠ .fetching → step s = .refused (.noStepEnabled s.run)

/-- A fetch at an odd PC, or at a word that holds no value, stops before decoding, with the PC and every counter as they
were (20_memory.md R54, 10_state.md R39, 60_exceptions.md R215). -/
def Obligations.OddPcStopsAtTheFetch : Prop :=
  ∀ s : State, s.run = .fetching →
    (isOdd s.pc = true →
      step s = .fault (.oddAddress
        { s with run := .fatal ⟨.oddAddress s.pc .instructionFetch, s.pc⟩
                 ia := s.pc })) ∧
    (isOdd s.pc = false → s.mem.get (wordIndex s.pc) = none →
      step s = .fault (.uninitRead
        { s with run := .fatal ⟨.uninitRead s.pc, s.pc⟩
                 ia := s.pc }))

/-- `raise Fatal` (60_exceptions.md R212): FATAL with the cause and its information, and nothing else changes. That the
fault carries the state left is the model's form (log entry 6). -/
def Obligations.RaiseFatalRecordsTheCause : Prop :=
  ∀ (cause : FatalCause) (s : State), ∃ f, raiseFatal cause s = .fault f ∧
    f.left = { s with run := .fatal ⟨cause, s.ia⟩ } ∧ f.left.fatalRecord = some ⟨cause, s.ia⟩

/-- R215: an event of the source comes before any of the destination, and the destination's before the commit. -/
def Obligations.SourceStopsComeFirst : Prop :=
  ∀ (src dst : Operand) (s t u : State) (c : FatalCause) (p : Phrase) (i : Instr),
    (i = .mov src dst ∨ i = .cmp src dst ∨ i = .add src dst ∨ i = .sub src dst) →
      (resolve src s = .error c t → exec i s = raiseFatal c t) ∧
      (i ≠ .mov src dst → resolve src s = .ok p t → resolve dst t = .error c u → exec i s = raiseFatal c u) ∧
      (i = .mov src dst → resolve src s = .ok p t → resolveTarget dst t = .error c u → exec i s = raiseFatal c u)

/-- The only events that stop a step are an odd address and a use of a memory word without a value, each recorded truly
with the address of the instruction word; codes 2 to 5 never occur (20_memory.md R55, 60_exceptions.md R211, R213;
log entries 6 and 9). That UNINIT_READ names a memory word and never a register or a flag is the model's choice:
every register and flag holds a value (log entries 1 and 2). -/
def Obligations.OnlyOddAddressAndUninitReadStop : Prop :=
  ∀ (s : State) (f : Fault), step s = .fault f →
    (∃ a kind, f = .oddAddress f.left ∧ f.left.run = .fatal ⟨.oddAddress a kind, s.pc⟩ ∧ isOdd a = true) ∨
    (∃ a, f = .uninitRead f.left ∧ f.left.run = .fatal ⟨.uninitRead a, s.pc⟩ ∧ isOdd a = false ∧
      s.mem.get (wordIndex a) = none)

/-- R96: every instruction is counted once, a decode error and a stopped step are not. -/
def Obligations.InstructionsAreCounted : Prop :=
  ∀ s : State,
    (∀ t i, step s = .next t → s.current = some i → t.cnt.inst = s.cnt.inst + 1) ∧
    (∀ t, step s = .next t → s.current = none → t.cnt.inst = s.cnt.inst) ∧
    (∀ f, step s = .fault f → f.left.cnt.inst = s.cnt.inst)

/-- R97: `cnt.ifetch` grows by one for the instruction word and by one for each index word. -/
def Obligations.FetchesAreCounted : Prop :=
  ∀ s t : State, step s = .next t →
    (∀ i, s.current = some i →
      t.cnt.ifetch = s.cnt.ifetch + 1 + (i.operands.map (fun o => o.mode.indexWords)).sum) ∧
    (s.current = none → t.cnt.ifetch = s.cnt.ifetch + 1)

/-- R98 with the table of R124: data reads as the modes make them, one write for a memory destination, none otherwise. -/
def Obligations.DataAccessesAreCounted : Prop :=
  ∀ s t : State, step s = .next t →
    (∀ i, s.current = some i →
      t.cnt.dread = s.cnt.dread + (i.operands.map (fun o => o.mode.dataReads)).sum ∧
      (∀ d, i.destination = some d → d.mode ≠ .register → t.cnt.dwrite = s.cnt.dwrite + 1) ∧
      (∀ d, i.destination = some d → d.mode = .register → t.cnt.dwrite = s.cnt.dwrite) ∧
      (i.destination = none → t.cnt.dwrite = s.cnt.dwrite)) ∧
    (s.current = none → t.cnt.dread = s.cnt.dread ∧ t.cnt.dwrite = s.cnt.dwrite)

/-- SOB, BR, BNE and BEQ count as branches, taken or not; nothing else counts (R99). That a stopped step counts none is the
model's, not R99's: Z always holds a value here (log entry 2), while a BNE or BEQ that stopped at a Z without one would
stop after `cnt.br` grew (45_branches.md R176, 10_state.md R39). -/
def Obligations.BranchesAreCounted : Prop :=
  ∀ s : State,
    (∀ t i, step s = .next t → s.current = some i →
      t.cnt.br = s.cnt.br + (if i.isBranch then 1 else 0) ∧
      t.cnt.taken = s.cnt.taken + (if s.fetched.takes i then 1 else 0)) ∧
    (∀ t, step s = .next t → s.current = none → t.cnt.br = s.cnt.br ∧ t.cnt.taken = s.cnt.taken) ∧
    (∀ f, step s = .fault f → f.left.cnt.br = s.cnt.br ∧ f.left.cnt.taken = s.cnt.taken)

/-- The PC after an instruction that is no branch, does not write R7 as its destination and does not use mode 4 or 5 on
R7 is past its words (30_encoding.md R79, 40_execution_cycle.md R95). -/
def Obligations.PcEndsPastTheInstructionsWords : Prop :=
  ∀ (s t : State) (i : Instr), step s = .next t → s.current = some i → i.isBranch = false →
    (∀ o, o ∈ i.operands → ¬(o.reg = .r7 ∧ (o.mode = .autoDec ∨ o.mode = .autoDecIndirect))) →
    (∀ d, i.destination = some d → ¬(d.mode = .register ∧ d.reg = .r7)) →
      t.pc = s.pc + BitVec.ofNat 16 (2 * i.lengthWords)

/-- A step writes one word of memory at most, and then counts a data write (20_memory.md R59, R63). -/
def Obligations.StepWritesAtMostOneWord : Prop :=
  ∀ s t : State, step s = .next t →
    (∀ j k, t.mem.get j ≠ s.mem.get j → t.mem.get k ≠ s.mem.get k → j = k) ∧
    (t.mem ≠ s.mem → t.cnt.dwrite = s.cnt.dwrite + 1)

/-! ## Whole-machine rules -/

/-- Memory keeps its canonical form, and the run state between steps is FETCHING, HALTED or FATAL (10_state.md R25,
20_memory.md R50): every step keeps both, whether it answers a next state or stops. -/
def Obligations.EveryStepKeepsTheInvariant : Prop :=
  ∀ s : State, s.inv →
    (∀ t, step s = .next t → t.inv ∧ (t.run = .fetching ∨ t.run = .halted)) ∧
    (∀ f, step s = .fault f → f.left.inv ∧ ∃ record, f.left.run = .fatal record)

/-- The invariant holds after reset. -/
def Obligations.ResetMeetsTheInvariant : Prop := State.reset.inv

/-- R28: the only flag a step reads is Z. States that differ in N, V and C alone step alike, but for those flags. -/
def Obligations.OnlyZIsEverRead : Prop :=
  ∀ (s : State) (f : Flags), f.z = s.flags.z →
    (∀ t, step s = .next t → ∃ g, step (s.setFlags f) = .next (t.setFlags g) ∧ g.z = t.flags.z) ∧
    (∀ e, step s = .fault e → ∃ e', step (s.setFlags f) = .fault e' ∧ e'.left = e.left.setFlags f) ∧
    (∀ r, step s = .refused r → step (s.setFlags f) = .refused r)

/-- R30: the counters have "no control influence". States that differ in them alone step alike, but for the counters. -/
def Obligations.CountersControlNothing : Prop :=
  ∀ (s : State) (c : Counters),
    (∀ t, step s = .next t → ∃ d, step { s with cnt := c } = .next { t with cnt := d }) ∧
    (∀ e, step s = .fault e → ∃ e' d, step { s with cnt := c } = .fault e' ∧ e'.left = { e.left with cnt := d }) ∧
    (∀ r, step s = .refused r → step { s with cnt := c } = .refused r)

/-- R30: the counters are "monotonically increasing". -/
def Obligations.CountersNeverDecrease : Prop :=
  ∀ s t : State, step s = .next t →
    s.cnt.inst ≤ t.cnt.inst ∧ s.cnt.ifetch ≤ t.cnt.ifetch ∧ s.cnt.dread ≤ t.cnt.dread ∧
    s.cnt.dwrite ≤ t.cnt.dwrite ∧ s.cnt.br ≤ t.cnt.br ∧ s.cnt.taken ≤ t.cnt.taken

/-- `ia` is no state between steps: a step writes it before it reads it (10_state.md R36; log entry 8). -/
def Obligations.InstructionAddressIsNotCarriedOver : Prop :=
  ∀ (s : State) (a : Word), step (s.setIa a) = step s

/-- A run is safe as Safety.lean says exactly when it goes on or has ended in HALTED (40_execution_cycle.md
R100); the refusal's name is the model's (log entry 7). -/
def Obligations.SafeRunsGoOnOrHalt : Prop :=
  ∀ (n : Nat) (s : State), safeFor n s = true ↔
    (∃ t, Sys2Proof.core.run n s = .next t) ∨
    Sys2Proof.core.run n s = .refused (Refusal.noStepEnabled .halted)

/-! ## Launch and outputs -/

/-- The launch (70_reset_and_hazards.md R240, R243, 10_state.md R38): every piece of state at its launch value, the
image from word 0 on, the supplied words behind it, no value elsewhere; a longer image is refused (D17). -/
def Obligations.LaunchSetsEveryPieceOfState : Prop :=
  ∀ p : Launch,
    (p.image.length ≤ 32768 → (∀ c, c ∈ p.initMem → c.1 < 32768) →
      ∃ s, p.start = some s ∧ s.pc = p.startPc ∧ s.x .r0 = p.r0 ∧ s.x .r1 = p.r1 ∧ s.x .r2 = p.r2 ∧
        s.x .r3 = p.r3 ∧ s.x .r4 = p.r4 ∧ s.x .r5 = p.r5 ∧ s.x .r6 = p.r6 ∧ s.flags = p.flags ∧
        s.cnt = ⟨0, 0, 0, 0, 0, 0⟩ ∧ s.run = .fetching ∧ s.inv ∧
        (∀ k v, p.image[k]? = some v → s.mem.get k = some v) ∧
        (∀ k v, p.image.length ≤ k → (p.initMem.map Prod.fst).Nodup → (k, v) ∈ p.initMem →
          s.mem.get k = some v) ∧
        (∀ k, p.image.length ≤ k → (∀ c, c ∈ p.initMem → c.1 ≠ k) → s.mem.get k = none)) ∧
    (32768 < p.image.length → p.start = none)

/-- Reset is the launch with no image: PC 0, FETCHING, counters 0, no memory word given a value (R38).
R0 to R6 and the flags of it are the model's choice (log entries 1 and 2). -/
def Obligations.ResetIsTheLaunchWithoutAnImage : Prop :=
  Launch.default.start = some State.reset ∧ State.reset.pc = 0 ∧ State.reset.run = .fetching ∧
  State.reset.cnt = ⟨0, 0, 0, 0, 0, 0⟩ ∧ ∀ k, State.reset.mem.get k = none

/-- R29: `CC = N ++ Z ++ V ++ C`, N in bit 3. -/
def Obligations.CcHoldsTheFlagsInOrder : Prop :=
  ∀ s : State,
    s.cc.getLsbD 3 = s.flags.n ∧ s.cc.getLsbD 2 = s.flags.z ∧ s.cc.getLsbD 1 = s.flags.v ∧
    s.cc.getLsbD 0 = s.flags.c

/-- The trace event of a completed step (R44): the address, the word, the mnemonic or DECODE_ERROR, one phrase for each
operand specifier with its mode, register, address and value (R35), and the flags after. -/
def Obligations.EveryCompletedStepHasItsTraceEvent : Prop :=
  ∀ s t : State, step s = .next t →
    ∃ e, traceEvent s = some e ∧ e.ia = s.pc ∧ s.wordAt s.pc = some e.w ∧ e.cc = t.cc ∧
      (∀ i, s.current = some i →
        e.instruction = mnemonic i ∧
        e.phrases.map (fun q => ((⟨q.target.mode, q.target.reg⟩ : Operand), some q.target.addr, q.value)) =
          s.fetched.operandTrace i.operands) ∧
      (s.current = none → e.instruction = "DECODE_ERROR" ∧ e.phrases = [])

/-- The event codes (60_exceptions.md R211), and the events of a HALT, a decode error and a stop. -/
def Obligations.EventsCarryTheirCodes : Prop :=
  ∀ s : State,
    (s.run = .fetching → s.wordAt s.pc = some 0 → stepEvent s = some (.halt s.pc) ∧ (Event.halt s.pc).code = 0) ∧
    (∀ w, s.run = .fetching → s.wordAt s.pc = some w → decode w = .error (.noRow w) →
      stepEvent s = some (.decodeError w s.pc) ∧ (Event.decodeError w s.pc).code = 6) ∧
    (∀ f, step s = .fault f → ∃ record, f.left.fatalRecord = some record ∧ stepEvent s = some (.fatal record) ∧
      record.ia = s.pc ∧
      ((Event.fatal record).code = 1 ∨ (Event.fatal record).code = 7) ∧
      ((Event.fatal record).code = 1 ↔ f = .oddAddress f.left) ∧
      ((Event.fatal record).code = 7 ↔ f = .uninitRead f.left))

/-- The word that withFetchWord places is the word the next step fetches (log entry 10). -/
def Obligations.PlacedWordIsFetchedNext : Prop :=
  ∀ (s : State) (nbits w : Nat), isOdd s.pc = false →
    (s.withFetchWord nbits w).wordAt s.pc = some (BitVec.ofNat 16 (w % 2 ^ nbits)) ∧
    ∀ k, k ≠ wordIndex s.pc → k ≠ wordIndex (s.pc + 2) → k ≠ wordIndex (s.pc + 4) →
      (s.withFetchWord nbits w).mem.get k = s.mem.get k
end

