-- ==== Sys2Proof/Laws/Encoding.lean ====
section
/-! SUPPORT. The fields of an encoded word (spec 30_encoding.md R72): each format as a number, each field where the
format puts it, and the masks of R74 as fields. -/

namespace Sys2Proof

@[simp] theorem Reg.ofBits_bits (r : Reg) : Reg.ofBits r.bits = r := by
  cases r <;> rfl

@[simp] theorem Mode.ofBits_bits (m : Mode) : Mode.ofBits m.bits = m := by
  cases m <;> rfl

theorem Reg.bits_ofBits (b : BitVec 3) : (Reg.ofBits b).bits = b := by
  revert b
  decide

theorem Mode.bits_ofBits (b : BitVec 3) : (Mode.ofBits b).bits = b := by
  revert b
  decide

/-- A field of a word, by its number. -/
theorem extract_eq {w : Word} {k n : Nat} {b : BitVec n} (h : w.toNat / 2 ^ k % 2 ^ n = b.toNat) :
    w.extractLsb' k n = b := by
  apply BitVec.eq_of_toNat_eq
  rw [BitVec.extractLsb'_toNat, Nat.shiftRight_eq_div_pow, h]

/-! ## The formats as numbers -/

theorem encodeDop_toNat (op : BitVec 4) (s d : Operand) :
    (encodeDop op s d).toNat = op.toNat * 4096 + s.mode.bits.toNat * 512 + s.reg.bits.toNat * 64 +
      d.mode.bits.toNat * 8 + d.reg.bits.toNat := by
  have := s.mode.bits.isLt
  have := s.reg.bits.isLt
  have := d.mode.bits.isLt
  have := d.reg.bits.isLt
  rw [encodeDop, BitVec.toNat_cast, BitVec.toNat_append, BitVec.toNat_append, BitVec.toNat_append,
    BitVec.toNat_append, ← Nat.shiftLeft_add_eq_or_of_lt (by omega), ← Nat.shiftLeft_add_eq_or_of_lt (by omega),
    ← Nat.shiftLeft_add_eq_or_of_lt (by omega), ← Nat.shiftLeft_add_eq_or_of_lt (by omega)]
  simp only [Nat.shiftLeft_eq]
  omega

theorem encodeSop_toNat (op : BitVec 10) (d : Operand) :
    (encodeSop op d).toNat = op.toNat * 64 + d.mode.bits.toNat * 8 + d.reg.bits.toNat := by
  have := d.mode.bits.isLt
  have := d.reg.bits.isLt
  rw [encodeSop, BitVec.toNat_cast, BitVec.toNat_append, BitVec.toNat_append,
    ← Nat.shiftLeft_add_eq_or_of_lt (by omega), ← Nat.shiftLeft_add_eq_or_of_lt (by omega)]
  simp only [Nat.shiftLeft_eq]
  omega

theorem encodeBr8_toNat (op : BitVec 8) (offset : Int) :
    (encodeBr8 op offset).toNat = op.toNat * 256 + (BitVec.ofInt 8 offset).toNat := by
  have := (BitVec.ofInt 8 offset).isLt
  rw [encodeBr8, BitVec.toNat_cast, BitVec.toNat_append, ← Nat.shiftLeft_add_eq_or_of_lt (by omega)]
  simp only [Nat.shiftLeft_eq]

theorem encodeSob6_toNat (op : BitVec 7) (reg : Reg) (offset : Nat) :
    (encodeSob6 op reg offset).toNat = op.toNat * 512 + reg.bits.toNat * 64 + offset % 64 := by
  have := reg.bits.isLt
  have h : (BitVec.ofNat 6 offset).toNat = offset % 64 := BitVec.toNat_ofNat offset 6
  rw [encodeSob6, BitVec.toNat_cast, BitVec.toNat_append, BitVec.toNat_append, h,
    ← Nat.shiftLeft_add_eq_or_of_lt (by omega), ← Nat.shiftLeft_add_eq_or_of_lt (by omega)]
  simp only [Nat.shiftLeft_eq]
  omega

/-! ## The operand fields of each format -/

theorem srcOperand_encodeDop (op : BitVec 4) (s d : Operand) : srcOperand (encodeDop op s d) = s := by
  have := s.mode.bits.isLt
  have := s.reg.bits.isLt
  have := d.mode.bits.isLt
  have := d.reg.bits.isLt
  have hm : (encodeDop op s d).extractLsb' 9 3 = s.mode.bits := extract_eq (by rw [encodeDop_toNat]; omega)
  have hr : (encodeDop op s d).extractLsb' 6 3 = s.reg.bits := extract_eq (by rw [encodeDop_toNat]; omega)
  simp [srcOperand, hm, hr]

theorem dstOperand_encodeDop (op : BitVec 4) (s d : Operand) : dstOperand (encodeDop op s d) = d := by
  have := d.mode.bits.isLt
  have := d.reg.bits.isLt
  have hm : (encodeDop op s d).extractLsb' 3 3 = d.mode.bits := extract_eq (by rw [encodeDop_toNat]; omega)
  have hr : (encodeDop op s d).extractLsb' 0 3 = d.reg.bits := extract_eq (by rw [encodeDop_toNat]; omega)
  simp [dstOperand, hm, hr]

theorem dstOperand_encodeSop (op : BitVec 10) (d : Operand) : dstOperand (encodeSop op d) = d := by
  have := d.mode.bits.isLt
  have := d.reg.bits.isLt
  have hm : (encodeSop op d).extractLsb' 3 3 = d.mode.bits := extract_eq (by rw [encodeSop_toNat]; omega)
  have hr : (encodeSop op d).extractLsb' 0 3 = d.reg.bits := extract_eq (by rw [encodeSop_toNat]; omega)
  simp [dstOperand, hm, hr]

/-! ## The masks of R74 -/

theorem and_mask12 (w : Word) : (w &&& 0o170000#16).toNat = w.toNat / 4096 * 4096 := by
  have h : w &&& 0o170000#16 = (w >>> 12) <<< 12 := by
    ext i hi
    interval_cases i <;> simp
  have := w.isLt
  rw [h, BitVec.toNat_shiftLeft, BitVec.toNat_ushiftRight, Nat.shiftLeft_eq, Nat.shiftRight_eq_div_pow]
  omega

theorem and_mask9 (w : Word) : (w &&& 0o177000#16).toNat = w.toNat / 512 * 512 := by
  have h : w &&& 0o177000#16 = (w >>> 9) <<< 9 := by
    ext i hi
    interval_cases i <;> simp
  have := w.isLt
  rw [h, BitVec.toNat_shiftLeft, BitVec.toNat_ushiftRight, Nat.shiftLeft_eq, Nat.shiftRight_eq_div_pow]
  omega

theorem and_mask8 (w : Word) : (w &&& 0o177400#16).toNat = w.toNat / 256 * 256 := by
  have h : w &&& 0o177400#16 = (w >>> 8) <<< 8 := by
    ext i hi
    interval_cases i <;> simp
  have := w.isLt
  rw [h, BitVec.toNat_shiftLeft, BitVec.toNat_ushiftRight, Nat.shiftLeft_eq, Nat.shiftRight_eq_div_pow]
  omega

theorem and_mask6 (w : Word) : (w &&& 0o177700#16).toNat = w.toNat / 64 * 64 := by
  have h : w &&& 0o177700#16 = (w >>> 6) <<< 6 := by
    ext i hi
    interval_cases i <;> simp
  have := w.isLt
  rw [h, BitVec.toNat_shiftLeft, BitVec.toNat_ushiftRight, Nat.shiftLeft_eq, Nat.shiftRight_eq_div_pow]
  omega

end Sys2Proof
end

