-- ==== Sys2Proof/Laws/State.lean ====
section
/-! SUPPORT. What each update of the state does to each field: one lemma a field and an update. -/

namespace Sys2Proof.Machine

/-! ## Register file -/

@[simp] theorem RegFile.get_set_self (f : RegFile) (r : Reg) (v : Word) : (f.set r v).get r = v := by
  cases r <;> rfl

@[simp] theorem RegFile.get_set_ne (f : RegFile) {r q : Reg} (v : Word) (h : q ≠ r) :
    (f.set r v).get q = f.get q := by
  cases r <;> cases q <;> first | rfl | exact absurd rfl h

theorem RegFile.get_set (f : RegFile) (r q : Reg) (v : Word) :
    (f.set r v).get q = if q = r then v else f.get q := by
  split
  · subst_vars; simp
  · simp [*]

@[simp] theorem RegFile.set_set (f : RegFile) (r : Reg) (v w : Word) : (f.set r v).set r w = f.set r w := by
  cases r <;> rfl

@[simp] theorem RegFile.set_get_self (f : RegFile) (r : Reg) : f.set r (f.get r) = f := by
  cases r <;> rfl

theorem RegFile.ext_get {f g : RegFile} (h : ∀ r, f.get r = g.get r) : f = g := by
  have h0 := h .r0
  have h1 := h .r1
  have h2 := h .r2
  have h3 := h .r3
  have h4 := h .r4
  have h5 := h .r5
  have h6 := h .r6
  have h7 := h .r7
  cases f; cases g
  simp only [RegFile.get] at *
  simp [*]

/-! ## Registers of the state -/

@[simp] theorem State.pc_eq (s : State) : s.pc = s.x .r7 := rfl

@[simp] theorem State.x_setX_self (s : State) (r : Reg) (v : Word) : (s.setX r v).x r = v := by
  simp [State.x, State.setX]

@[simp] theorem State.x_setX_ne (s : State) {r q : Reg} (v : Word) (h : q ≠ r) : (s.setX r v).x q = s.x q := by
  simp [State.x, State.setX, h]

@[simp] theorem State.x_setFlags (s : State) (f : Flags) (r : Reg) : (s.setFlags f).x r = s.x r := rfl
@[simp] theorem State.x_setRun (s : State) (q : RunState) (r : Reg) : (s.setRun q).x r = s.x r := rfl
@[simp] theorem State.x_setMem (s : State) (m : Memory) (r : Reg) : (s.setMem m).x r = s.x r := rfl
@[simp] theorem State.x_setIa (s : State) (a : Word) (r : Reg) : (s.setIa a).x r = s.x r := rfl
@[simp] theorem State.x_countInst (s : State) (r : Reg) : s.countInst.x r = s.x r := rfl
@[simp] theorem State.x_countIfetch (s : State) (r : Reg) : s.countIfetch.x r = s.x r := rfl
@[simp] theorem State.x_countDread (s : State) (r : Reg) : s.countDread.x r = s.x r := rfl
@[simp] theorem State.x_countDwrite (s : State) (r : Reg) : s.countDwrite.x r = s.x r := rfl
@[simp] theorem State.x_countBr (s : State) (r : Reg) : s.countBr.x r = s.x r := rfl
@[simp] theorem State.x_countTaken (s : State) (r : Reg) : s.countTaken.x r = s.x r := rfl

/-! ## The other fields -/

@[simp] theorem State.regs_setX (s : State) (r : Reg) (v : Word) : (s.setX r v).regs = s.regs.set r v := rfl
@[simp] theorem State.flags_setX (s : State) (r : Reg) (v : Word) : (s.setX r v).flags = s.flags := rfl
@[simp] theorem State.run_setX (s : State) (r : Reg) (v : Word) : (s.setX r v).run = s.run := rfl
@[simp] theorem State.cnt_setX (s : State) (r : Reg) (v : Word) : (s.setX r v).cnt = s.cnt := rfl
@[simp] theorem State.mem_setX (s : State) (r : Reg) (v : Word) : (s.setX r v).mem = s.mem := rfl
@[simp] theorem State.ia_setX (s : State) (r : Reg) (v : Word) : (s.setX r v).ia = s.ia := rfl

@[simp] theorem State.regs_setFlags (s : State) (f : Flags) : (s.setFlags f).regs = s.regs := rfl
@[simp] theorem State.flags_setFlags (s : State) (f : Flags) : (s.setFlags f).flags = f := rfl
@[simp] theorem State.run_setFlags (s : State) (f : Flags) : (s.setFlags f).run = s.run := rfl
@[simp] theorem State.cnt_setFlags (s : State) (f : Flags) : (s.setFlags f).cnt = s.cnt := rfl
@[simp] theorem State.mem_setFlags (s : State) (f : Flags) : (s.setFlags f).mem = s.mem := rfl
@[simp] theorem State.ia_setFlags (s : State) (f : Flags) : (s.setFlags f).ia = s.ia := rfl

@[simp] theorem State.regs_setRun (s : State) (q : RunState) : (s.setRun q).regs = s.regs := rfl
@[simp] theorem State.flags_setRun (s : State) (q : RunState) : (s.setRun q).flags = s.flags := rfl
@[simp] theorem State.run_setRun (s : State) (q : RunState) : (s.setRun q).run = q := rfl
@[simp] theorem State.cnt_setRun (s : State) (q : RunState) : (s.setRun q).cnt = s.cnt := rfl
@[simp] theorem State.mem_setRun (s : State) (q : RunState) : (s.setRun q).mem = s.mem := rfl
@[simp] theorem State.ia_setRun (s : State) (q : RunState) : (s.setRun q).ia = s.ia := rfl

@[simp] theorem State.regs_setMem (s : State) (m : Memory) : (s.setMem m).regs = s.regs := rfl
@[simp] theorem State.flags_setMem (s : State) (m : Memory) : (s.setMem m).flags = s.flags := rfl
@[simp] theorem State.run_setMem (s : State) (m : Memory) : (s.setMem m).run = s.run := rfl
@[simp] theorem State.cnt_setMem (s : State) (m : Memory) : (s.setMem m).cnt = s.cnt := rfl
@[simp] theorem State.mem_setMem (s : State) (m : Memory) : (s.setMem m).mem = m := rfl
@[simp] theorem State.ia_setMem (s : State) (m : Memory) : (s.setMem m).ia = s.ia := rfl

@[simp] theorem State.regs_setIa (s : State) (a : Word) : (s.setIa a).regs = s.regs := rfl
@[simp] theorem State.flags_setIa (s : State) (a : Word) : (s.setIa a).flags = s.flags := rfl
@[simp] theorem State.run_setIa (s : State) (a : Word) : (s.setIa a).run = s.run := rfl
@[simp] theorem State.cnt_setIa (s : State) (a : Word) : (s.setIa a).cnt = s.cnt := rfl
@[simp] theorem State.mem_setIa (s : State) (a : Word) : (s.setIa a).mem = s.mem := rfl
@[simp] theorem State.ia_setIa (s : State) (a : Word) : (s.setIa a).ia = a := rfl

@[simp] theorem State.regs_countInst (s : State) : s.countInst.regs = s.regs := rfl
@[simp] theorem State.flags_countInst (s : State) : s.countInst.flags = s.flags := rfl
@[simp] theorem State.run_countInst (s : State) : s.countInst.run = s.run := rfl
@[simp] theorem State.inst_countInst (s : State) : s.countInst.cnt.inst = s.cnt.inst + 1 := rfl
@[simp] theorem State.ifetch_countInst (s : State) : s.countInst.cnt.ifetch = s.cnt.ifetch := rfl
@[simp] theorem State.dread_countInst (s : State) : s.countInst.cnt.dread = s.cnt.dread := rfl
@[simp] theorem State.dwrite_countInst (s : State) : s.countInst.cnt.dwrite = s.cnt.dwrite := rfl
@[simp] theorem State.br_countInst (s : State) : s.countInst.cnt.br = s.cnt.br := rfl
@[simp] theorem State.taken_countInst (s : State) : s.countInst.cnt.taken = s.cnt.taken := rfl
@[simp] theorem State.mem_countInst (s : State) : s.countInst.mem = s.mem := rfl
@[simp] theorem State.ia_countInst (s : State) : s.countInst.ia = s.ia := rfl

@[simp] theorem State.regs_countIfetch (s : State) : s.countIfetch.regs = s.regs := rfl
@[simp] theorem State.flags_countIfetch (s : State) : s.countIfetch.flags = s.flags := rfl
@[simp] theorem State.run_countIfetch (s : State) : s.countIfetch.run = s.run := rfl
@[simp] theorem State.inst_countIfetch (s : State) : s.countIfetch.cnt.inst = s.cnt.inst := rfl
@[simp] theorem State.ifetch_countIfetch (s : State) : s.countIfetch.cnt.ifetch = s.cnt.ifetch + 1 := rfl
@[simp] theorem State.dread_countIfetch (s : State) : s.countIfetch.cnt.dread = s.cnt.dread := rfl
@[simp] theorem State.dwrite_countIfetch (s : State) : s.countIfetch.cnt.dwrite = s.cnt.dwrite := rfl
@[simp] theorem State.br_countIfetch (s : State) : s.countIfetch.cnt.br = s.cnt.br := rfl
@[simp] theorem State.taken_countIfetch (s : State) : s.countIfetch.cnt.taken = s.cnt.taken := rfl
@[simp] theorem State.mem_countIfetch (s : State) : s.countIfetch.mem = s.mem := rfl
@[simp] theorem State.ia_countIfetch (s : State) : s.countIfetch.ia = s.ia := rfl

@[simp] theorem State.regs_countDread (s : State) : s.countDread.regs = s.regs := rfl
@[simp] theorem State.flags_countDread (s : State) : s.countDread.flags = s.flags := rfl
@[simp] theorem State.run_countDread (s : State) : s.countDread.run = s.run := rfl
@[simp] theorem State.inst_countDread (s : State) : s.countDread.cnt.inst = s.cnt.inst := rfl
@[simp] theorem State.ifetch_countDread (s : State) : s.countDread.cnt.ifetch = s.cnt.ifetch := rfl
@[simp] theorem State.dread_countDread (s : State) : s.countDread.cnt.dread = s.cnt.dread + 1 := rfl
@[simp] theorem State.dwrite_countDread (s : State) : s.countDread.cnt.dwrite = s.cnt.dwrite := rfl
@[simp] theorem State.br_countDread (s : State) : s.countDread.cnt.br = s.cnt.br := rfl
@[simp] theorem State.taken_countDread (s : State) : s.countDread.cnt.taken = s.cnt.taken := rfl
@[simp] theorem State.mem_countDread (s : State) : s.countDread.mem = s.mem := rfl
@[simp] theorem State.ia_countDread (s : State) : s.countDread.ia = s.ia := rfl

@[simp] theorem State.regs_countDwrite (s : State) : s.countDwrite.regs = s.regs := rfl
@[simp] theorem State.flags_countDwrite (s : State) : s.countDwrite.flags = s.flags := rfl
@[simp] theorem State.run_countDwrite (s : State) : s.countDwrite.run = s.run := rfl
@[simp] theorem State.inst_countDwrite (s : State) : s.countDwrite.cnt.inst = s.cnt.inst := rfl
@[simp] theorem State.ifetch_countDwrite (s : State) : s.countDwrite.cnt.ifetch = s.cnt.ifetch := rfl
@[simp] theorem State.dread_countDwrite (s : State) : s.countDwrite.cnt.dread = s.cnt.dread := rfl
@[simp] theorem State.dwrite_countDwrite (s : State) : s.countDwrite.cnt.dwrite = s.cnt.dwrite + 1 := rfl
@[simp] theorem State.br_countDwrite (s : State) : s.countDwrite.cnt.br = s.cnt.br := rfl
@[simp] theorem State.taken_countDwrite (s : State) : s.countDwrite.cnt.taken = s.cnt.taken := rfl
@[simp] theorem State.mem_countDwrite (s : State) : s.countDwrite.mem = s.mem := rfl
@[simp] theorem State.ia_countDwrite (s : State) : s.countDwrite.ia = s.ia := rfl

@[simp] theorem State.regs_countBr (s : State) : s.countBr.regs = s.regs := rfl
@[simp] theorem State.flags_countBr (s : State) : s.countBr.flags = s.flags := rfl
@[simp] theorem State.run_countBr (s : State) : s.countBr.run = s.run := rfl
@[simp] theorem State.inst_countBr (s : State) : s.countBr.cnt.inst = s.cnt.inst := rfl
@[simp] theorem State.ifetch_countBr (s : State) : s.countBr.cnt.ifetch = s.cnt.ifetch := rfl
@[simp] theorem State.dread_countBr (s : State) : s.countBr.cnt.dread = s.cnt.dread := rfl
@[simp] theorem State.dwrite_countBr (s : State) : s.countBr.cnt.dwrite = s.cnt.dwrite := rfl
@[simp] theorem State.br_countBr (s : State) : s.countBr.cnt.br = s.cnt.br + 1 := rfl
@[simp] theorem State.taken_countBr (s : State) : s.countBr.cnt.taken = s.cnt.taken := rfl
@[simp] theorem State.mem_countBr (s : State) : s.countBr.mem = s.mem := rfl
@[simp] theorem State.ia_countBr (s : State) : s.countBr.ia = s.ia := rfl

@[simp] theorem State.regs_countTaken (s : State) : s.countTaken.regs = s.regs := rfl
@[simp] theorem State.flags_countTaken (s : State) : s.countTaken.flags = s.flags := rfl
@[simp] theorem State.run_countTaken (s : State) : s.countTaken.run = s.run := rfl
@[simp] theorem State.inst_countTaken (s : State) : s.countTaken.cnt.inst = s.cnt.inst := rfl
@[simp] theorem State.ifetch_countTaken (s : State) : s.countTaken.cnt.ifetch = s.cnt.ifetch := rfl
@[simp] theorem State.dread_countTaken (s : State) : s.countTaken.cnt.dread = s.cnt.dread := rfl
@[simp] theorem State.dwrite_countTaken (s : State) : s.countTaken.cnt.dwrite = s.cnt.dwrite := rfl
@[simp] theorem State.br_countTaken (s : State) : s.countTaken.cnt.br = s.cnt.br := rfl
@[simp] theorem State.taken_countTaken (s : State) : s.countTaken.cnt.taken = s.cnt.taken + 1 := rfl
@[simp] theorem State.mem_countTaken (s : State) : s.countTaken.mem = s.mem := rfl
@[simp] theorem State.ia_countTaken (s : State) : s.countTaken.ia = s.ia := rfl

end Sys2Proof.Machine
end

