-- ==== Sys2Proof/Laws/Memory.lean ====
section
/-! SUPPORT. The laws of the word memory: read after write, and the canonical form. -/

namespace Sys2Proof.Machine

@[simp] theorem Memory.get_nil (k : Nat) : Memory.get [] k = none := rfl

@[simp] theorem Memory.get_put_self (m : Memory) (k : Nat) (v : Word) : (Memory.put m k v).get k = some v := by
  induction m with
  | nil => simp [Memory.put, Memory.get]
  | cons c rest ih =>
    obtain ⟨j, w⟩ := c
    simp only [Memory.put]
    split
    · simp [Memory.get]
    · split
      · simp [Memory.get]
      · rename_i h
        simp [Memory.get, ih, Ne.symm h]

@[simp] theorem Memory.get_put_ne (m : Memory) {k j : Nat} (v : Word) (h : j ≠ k) :
    (Memory.put m k v).get j = Memory.get m j := by
  induction m with
  | nil => simp [Memory.put, Memory.get, Ne.symm h]
  | cons c rest ih =>
    obtain ⟨i, w⟩ := c
    simp only [Memory.put]
    split
    · simp [Memory.get, Ne.symm h]
    · split
      · rename_i hk
        subst hk
        simp [Memory.get, Ne.symm h]
      · simp [Memory.get, ih]

theorem Memory.get_put (m : Memory) (k j : Nat) (v : Word) :
    (Memory.put m k v).get j = if j = k then some v else Memory.get m j := by
  split
  · subst_vars; simp
  · simp [*]

/-- A write keeps the canonical form from any bound at or below its index. -/
theorem Memory.wfFrom_put {m : Memory} {low k : Nat} (v : Word) (hl : low ≤ k) (hk : k < Config.memWords)
    (h : Memory.wfFrom low m = true) : Memory.wfFrom low (m.put k v) = true := by
  induction m generalizing low with
  | nil => simp [Memory.put, Memory.wfFrom, hl, hk]
  | cons c rest ih =>
    obtain ⟨j, w⟩ := c
    simp only [Memory.wfFrom, Bool.and_eq_true, decide_eq_true_eq] at h
    obtain ⟨⟨hlj, hj⟩, hr⟩ := h
    simp only [Memory.put]
    split
    · rename_i hkj
      simp only [Memory.wfFrom, Bool.and_eq_true, decide_eq_true_eq]
      exact ⟨⟨hl, hk⟩, ⟨hkj, hj⟩, hr⟩
    · split
      · rename_i hkj
        subst hkj
        simp only [Memory.wfFrom, Bool.and_eq_true, decide_eq_true_eq]
        exact ⟨⟨hl, hk⟩, hr⟩
      · simp only [Memory.wfFrom, Bool.and_eq_true, decide_eq_true_eq]
        exact ⟨⟨hlj, hj⟩, ih (by omega) hr⟩

/-- Every write inside the memory keeps the canonical form. -/
theorem Memory.wf_put {m : Memory} {k : Nat} (v : Word) (hk : k < Config.memWords) (h : m.wf = true) :
    Memory.wf (m.put k v) = true :=
  Memory.wfFrom_put v (Nat.zero_le k) hk h

theorem State.wf_reset : State.reset.mem.wf = true := rfl

/-- Every Word names a word inside the memory (20_memory.md R55). -/
theorem wordIndex_lt (a : Word) : wordIndex a < Config.memWords := by
  have := a.isLt
  simp only [wordIndex, Config.memWords]
  omega

theorem isOdd_eq (a : Word) : isOdd a = decide (a.toNat % 2 = 1) := by
  simp [isOdd, BitVec.getLsbD, Nat.testBit_zero]

/-- Two even byte addresses that name one word are one address. -/
theorem wordIndex_inj {a b : Word} (ha : isOdd a = false) (hb : isOdd b = false)
    (h : wordIndex a = wordIndex b) : a = b := by
  apply BitVec.eq_of_toNat_eq
  simp only [isOdd_eq, decide_eq_false_iff_not, wordIndex] at *
  omega

end Sys2Proof.Machine
end

