-- ==== Sys2Proof/Laws/Ops.lean ====
section
/-! SUPPORT. What each shared operation can do: how actions compose, and one equation or inversion lemma an operation. -/

namespace Sys2Proof.Machine

/-! ## Composition of actions -/

section Actions
variable {α β : Type}

theorem bind_apply (p : Action α) (f : α → Action β) (s : State) :
    (p >>= f) s = match p s with
      | .ok a t => f a t
      | .error c t => .error c t := by
  change EStateM.bind p f s = _
  unfold EStateM.bind
  cases p s <;> rfl

theorem map_apply (f : α → β) (p : Action α) (s : State) :
    (f <$> p) s = match p s with
      | .ok a t => .ok (f a) t
      | .error c t => .error c t := by
  rw [map_eq_pure_bind, bind_apply]
  cases p s <;> rfl

@[simp] theorem pure_apply (a : α) (s : State) : (pure a : Action α) s = .ok a s := rfl

/-- An action that ends normally, continued. -/
theorem bind_ok {p : Action α} {f : α → Action β} {s t : State} {a : α} (h : p s = .ok a t) :
    (p >>= f) s = f a t := by
  simp [bind_apply, h]

/-- An action that stops stops what follows it. -/
theorem bind_error {p : Action α} {f : α → Action β} {s t : State} {c : FatalCause} (h : p s = .error c t) :
    (p >>= f) s = .error c t := by
  simp [bind_apply, h]

theorem bind_eq_ok {p : Action α} {f : α → Action β} {s u : State} {b : β} :
    (p >>= f) s = .ok b u ↔ ∃ a t, p s = .ok a t ∧ f a t = .ok b u := by
  rw [bind_apply]
  cases p s <;> simp

theorem bind_eq_error {p : Action α} {f : α → Action β} {s u : State} {c : FatalCause} :
    (p >>= f) s = .error c u ↔ p s = .error c u ∨ ∃ a t, p s = .ok a t ∧ f a t = .error c u := by
  rw [bind_apply]
  cases p s <;> simp

end Actions

@[simp] theorem readX_apply (r : Reg) (s : State) : readX r s = .ok (s.x r) s := rfl

@[simp] theorem readZ_apply (s : State) : readZ s = .ok s.flags.z s := rfl

@[simp] theorem update_apply (f : State → State) (s : State) : update f s = .ok () (f s) := rfl

/-! ## The FATAL stop -/

theorem runRule_ok {rule : Action Unit} {s t : State} (h : rule s = .ok () t) : runRule rule s = .next t := by
  simp [runRule, h]

theorem runRule_error {rule : Action Unit} {s t : State} {c : FatalCause} (h : rule s = .error c t) :
    runRule rule s = raiseFatal c t := by
  simp [runRule, h]

theorem runRule_eq_next {rule : Action Unit} {s t : State} :
    runRule rule s = .next t ↔ rule s = .ok () t := by
  unfold runRule
  cases h : rule s <;> simp [raiseFatal]

theorem runRule_eq_fault {rule : Action Unit} {s : State} {f : Fault} :
    runRule rule s = .fault f ↔
      ∃ c t, rule s = .error c t ∧ f = c.fault (t.setRun (.fatal ⟨c, t.ia⟩)) := by
  unfold runRule
  cases h : rule s <;> simp [raiseFatal, eq_comm]

theorem runRule_ne_refused {rule : Action Unit} {s : State} {r : Refusal} : runRule rule s ≠ .refused r := by
  unfold runRule
  cases h : rule s <;> simp [raiseFatal]

/-! ## The memory port -/

/-- The range check never stops an access (20_memory.md R55). -/
theorem memRead_apply (kind : AccessKind) (a : Word) (s : State) :
    memRead kind a s = if isOdd a then .error (.oddAddress a kind) s else .ok (s.mem.get (wordIndex a)) s := by
  simp [memRead, Nat.not_le.mpr (wordIndex_lt a)]

theorem memWrite_apply (kind : AccessKind) (a v : Word) (s : State) :
    memWrite kind a v s =
      if isOdd a then .error (.oddAddress a kind) s else .ok () (s.setMem (s.mem.put (wordIndex a) v)) := by
  simp [memWrite, Nat.not_le.mpr (wordIndex_lt a)]

/-- How an access that needs a value can stop: the cause names an odd address, or an even one that holds no value. -/
inductive ReadStop (s : State) (kind : AccessKind) (a : Word) : FatalCause → Prop where
  | odd (h : isOdd a = true) : ReadStop s kind a (.oddAddress a kind)
  | noValue (h : isOdd a = false) (hm : s.mem.get (wordIndex a) = none) : ReadStop s kind a (.uninitRead a)

/-- Everything a data read can do. -/
theorem dataRead_cases (kind : AccessKind) (a : Word) (s : State) :
    (∃ v, isOdd a = false ∧ s.mem.get (wordIndex a) = some v ∧ dataRead kind a s = .ok v s.countDread) ∨
    (∃ c, ReadStop s kind a c ∧ dataRead kind a s = .error c s) := by
  by_cases ho : isOdd a = true
  · exact .inr ⟨_, .odd ho, by simp [dataRead, bind_apply, memRead_apply, ho]⟩
  · rw [Bool.not_eq_true] at ho
    cases hm : s.mem.get (wordIndex a) with
    | none => exact .inr ⟨_, .noValue ho hm, by simp [dataRead, bind_apply, memRead_apply, ho, hm, useValue]⟩
    | some v => exact .inl ⟨v, ho, rfl, by simp [dataRead, bind_apply, map_apply, memRead_apply, ho, hm, useValue]⟩

/-- Everything a fetch can do. -/
theorem fetchWord_cases (kind : AccessKind) (s : State) :
    (∃ w, isOdd s.pc = false ∧ s.mem.get (wordIndex s.pc) = some w ∧
      fetchWord kind s = .ok w (s.setX .r7 (s.pc + 2)).countIfetch) ∨
    (∃ c, ReadStop s kind s.pc c ∧ fetchWord kind s = .error c s) := by
  by_cases ho : isOdd s.pc = true
  · exact .inr ⟨_, .odd ho, by simp [fetchWord, bind_apply, memRead_apply, ho]⟩
  · rw [Bool.not_eq_true] at ho
    cases hm : s.mem.get (wordIndex s.pc) with
    | none => exact .inr ⟨_, .noValue ho hm, by simp [fetchWord, bind_apply, memRead_apply, ho, hm, useValue]⟩
    | some w => exact .inl ⟨w, ho, rfl, by simp [fetchWord, bind_apply, map_apply, memRead_apply, ho, hm, useValue]⟩

/-- Everything a discarded data read can do. -/
theorem dataReadDiscarded_cases (a : Word) (s : State) :
    (isOdd a = false ∧ dataReadDiscarded a s = .ok () s.countDread) ∨
    (isOdd a = true ∧ dataReadDiscarded a s = .error (.oddAddress a .dataRead) s) := by
  by_cases ho : isOdd a = true
  · exact .inr ⟨ho, by simp [dataReadDiscarded, bind_apply, memRead_apply, ho]⟩
  · rw [Bool.not_eq_true] at ho
    exact .inl ⟨ho, by simp [dataReadDiscarded, bind_apply, memRead_apply, ho]⟩

/-- Everything a data write can do. -/
theorem dataWrite_cases (a v : Word) (s : State) :
    (isOdd a = false ∧ dataWrite a v s = .ok () (s.setMem (s.mem.put (wordIndex a) v)).countDwrite) ∨
    (isOdd a = true ∧ dataWrite a v s = .error (.oddAddress a .dataWrite) s) := by
  by_cases ho : isOdd a = true
  · exact .inr ⟨ho, by simp [dataWrite, bind_apply, memWrite_apply, ho]⟩
  · rw [Bool.not_eq_true] at ho
    exact .inl ⟨ho, by simp [dataWrite, bind_apply, memWrite_apply, ho]⟩

/-! ## The start of a step -/

/-- Everything the start of a step can do: the assertion never fails (30_encoding.md R82). -/
theorem beginStep_cases (s : State) :
    (∃ w, isOdd s.pc = false ∧ s.mem.get (wordIndex s.pc) = some w ∧
      beginStep s = .ok w (((s.setIa s.pc).setX .r7 (s.pc + 2)).countIfetch.setRun .executing)) ∨
    (∃ c, ReadStop s .instructionFetch s.pc c ∧ beginStep s = .error c (s.setIa s.pc)) := by
  have hf := fetchWord_cases .instructionFetch (s.setIa s.pc)
  obtain ⟨w, ho, hm, h⟩ | ⟨c, hc, h⟩ := hf
  · left
    refine ⟨w, ho, hm, ?_⟩
    have hw : w.toNat < 65536 := w.isLt
    simp [beginStep, bind_apply, map_apply, h, hw]
  · right
    refine ⟨c, ?_, by simp [beginStep, bind_apply, h]⟩
    cases hc with
    | odd ho => exact .odd ho
    | noValue ho hm => exact .noValue ho hm

end Sys2Proof.Machine
end

