-- ==== Sys2Proof/Laws/Operands.lean ====
section
/-! SUPPORT. What the operand resolver can do, said once: it ends in the closed forms of Safety.lean, or it stops at a
read and has changed nothing but registers and read counters. -/

namespace Sys2Proof.Machine

/-- Why a read can stop, against the memory of `s`: an odd address, or an even one that holds no value. -/
def ReadFault (s : State) (c : FatalCause) : Prop :=
  (∃ a kind, c = .oddAddress a kind ∧ isOdd a = true) ∨
  (∃ a, c = .uninitRead a ∧ isOdd a = false ∧ s.mem.get (wordIndex a) = none)

/-- What reading leaves alone: all but registers, `cnt.ifetch` and `cnt.dread`. -/
structure ReadFrame (s t : State) : Prop where
  flags : t.flags = s.flags
  run : t.run = s.run
  mem : t.mem = s.mem
  ia : t.ia = s.ia
  inst : t.cnt.inst = s.cnt.inst
  dwrite : t.cnt.dwrite = s.cnt.dwrite
  br : t.cnt.br = s.cnt.br
  taken : t.cnt.taken = s.cnt.taken
  ifetch : s.cnt.ifetch ≤ t.cnt.ifetch
  dread : s.cnt.dread ≤ t.cnt.dread

theorem ReadFrame.refl (s : State) : ReadFrame s s :=
  ⟨rfl, rfl, rfl, rfl, rfl, rfl, rfl, rfl, le_refl _, le_refl _⟩

theorem ReadFrame.trans {s t u : State} (h : ReadFrame s t) (g : ReadFrame t u) : ReadFrame s u :=
  ⟨g.flags.trans h.flags, g.run.trans h.run, g.mem.trans h.mem, g.ia.trans h.ia, g.inst.trans h.inst,
    g.dwrite.trans h.dwrite, g.br.trans h.br, g.taken.trans h.taken, h.ifetch.trans g.ifetch,
    h.dread.trans g.dread⟩

theorem ReadFault.of_mem {s t : State} {c : FatalCause} (h : t.mem = s.mem) (hc : ReadFault t c) :
    ReadFault s c := by
  simpa [ReadFault, h] using hc

theorem ReadStop.readFault {s : State} {kind : AccessKind} {a : Word} {c : FatalCause}
    (h : ReadStop s kind a c) : ReadFault s c := by
  cases h with
  | odd h => exact .inl ⟨a, kind, rfl, h⟩
  | noValue h hm => exact .inr ⟨a, rfl, h, hm⟩

theorem ReadStop.wordAt {s : State} {kind : AccessKind} {a : Word} {c : FatalCause}
    (h : ReadStop s kind a c) : s.wordAt a = none := by
  cases h with
  | odd h => simp [State.wordAt, h]
  | noValue h hm => simp [State.wordAt, h, hm]

/-- A data read in terms of the word at its address. -/
theorem dataRead_wordAt (kind : AccessKind) (a : Word) (s : State) :
    (∃ v, s.wordAt a = some v ∧ dataRead kind a s = .ok v s.countDread) ∨
    (∃ c, s.wordAt a = none ∧ ReadFault s c ∧ dataRead kind a s = .error c s) := by
  obtain ⟨v, ho, hm, h⟩ | ⟨c, hc, h⟩ := dataRead_cases kind a s
  · exact .inl ⟨v, by simp [State.wordAt, ho, hm], h⟩
  · exact .inr ⟨c, hc.wordAt, hc.readFault, h⟩

/-- An index fetch in terms of the word at the PC. -/
theorem fetchWord_wordAt (kind : AccessKind) (s : State) :
    (∃ w, s.wordAt s.pc = some w ∧ fetchWord kind s = .ok w (s.setX .r7 (s.pc + 2)).countIfetch) ∨
    (∃ c, s.wordAt s.pc = none ∧ ReadFault s c ∧ fetchWord kind s = .error c s) := by
  obtain ⟨w, ho, hm, h⟩ | ⟨c, hc, h⟩ := fetchWord_cases kind s
  · refine .inl ⟨w, ?_, h⟩
    unfold State.wordAt
    rw [ho, hm]
    rfl
  · exact .inr ⟨c, hc.wordAt, hc.readFault, h⟩

theorem State.x_after_index (s : State) (r : Reg) :
    (s.setX .r7 (s.pc + 2)).countIfetch.x r = s.indexBase r := by
  unfold State.indexBase
  split
  · subst_vars; simp
  · simp [*]

/-- Where a read goes depends on memory alone. -/
theorem State.wordAt_of_mem {s t : State} (h : t.mem = s.mem) (a : Word) : t.wordAt a = s.wordAt a := by
  simp [State.wordAt, h]

@[simp] theorem State.wordAt_setX (s : State) (r : Reg) (v a : Word) : (s.setX r v).wordAt a = s.wordAt a := rfl
@[simp] theorem State.wordAt_setFlags (s : State) (f : Flags) (a : Word) : (s.setFlags f).wordAt a = s.wordAt a := rfl
@[simp] theorem State.wordAt_setRun (s : State) (q : RunState) (a : Word) : (s.setRun q).wordAt a = s.wordAt a := rfl
@[simp] theorem State.wordAt_countIfetch (s : State) (a : Word) : s.countIfetch.wordAt a = s.wordAt a := rfl
@[simp] theorem State.wordAt_countDread (s : State) (a : Word) : s.countDread.wordAt a = s.wordAt a := rfl

/-! ## The address -/

theorem resolveAddr_autoDecIndirect (r : Reg) : resolveAddr ⟨.autoDecIndirect, r⟩ = (do
    update (fun s => s.setX r (s.x r - 2))
    let pointer ← readX r
    dataRead .pointerRead pointer) := rfl

theorem resolveAddr_index (r : Reg) : resolveAddr ⟨.index, r⟩ = (do
    let X ← fetchWord .indexFetch
    let base ← readX r
    pure (base + X)) := rfl

theorem resolveAddr_indexDeferred (r : Reg) : resolveAddr ⟨.indexDeferred, r⟩ = (do
    let X ← fetchWord .indexFetch
    let base ← readX r
    dataRead .pointerRead (base + X)) := rfl

/-- The state after the part of a resolution that finds the address. -/
def State.afterAddr (s : State) (o : Operand) : State :=
  match o.mode with
  | .register => s
  | .indirect => s
  | .autoInc => s
  | .autoIncIndirect => s.countDread
  | .autoDec => s.setX o.reg (s.x o.reg - 2)
  | .autoDecIndirect => (s.setX o.reg (s.x o.reg - 2)).countDread
  | .index => (s.setX .r7 (s.pc + 2)).countIfetch
  | .indexDeferred => (s.setX .r7 (s.pc + 2)).countIfetch.countDread

theorem State.mem_afterAddr (s : State) (o : Operand) : (s.afterAddr o).mem = s.mem := by
  obtain ⟨m, r⟩ := o
  cases m <;> rfl

theorem readFrame_afterAddr (s : State) (o : Operand) : ReadFrame s (s.afterAddr o) := by
  obtain ⟨m, r⟩ := o
  cases m <;> exact ⟨rfl, rfl, rfl, rfl, rfl, rfl, rfl, rfl, by simp [State.afterAddr], by simp [State.afterAddr]⟩

/-- Everything the search for the address can do. -/
theorem resolveAddr_cases (o : Operand) (s : State) :
    (∃ a, s.operandAddr o = some a ∧ resolveAddr o s = .ok a (s.afterAddr o)) ∨
    (∃ c t, s.operandAddr o = none ∧ resolveAddr o s = .error c t ∧ ReadFault s c ∧ ReadFrame s t) := by
  obtain ⟨m, r⟩ := o
  cases m with
  | register => exact .inl ⟨0, rfl, rfl⟩
  | indirect => exact .inl ⟨_, rfl, rfl⟩
  | autoInc => exact .inl ⟨_, rfl, rfl⟩
  | autoDec => exact .inl ⟨_, rfl, by simp [resolveAddr, State.afterAddr, bind_apply]⟩
  | autoIncIndirect =>
    obtain ⟨v, hv, h⟩ | ⟨c, hv, hc, h⟩ := dataRead_wordAt .pointerRead (s.x r) s
    · exact .inl ⟨v, hv, by simp [resolveAddr, State.afterAddr, bind_apply, h]⟩
    · exact .inr ⟨c, s, hv, by simp [resolveAddr, bind_apply, h], hc, .refl s⟩
  | autoDecIndirect =>
    have hu := dataRead_wordAt .pointerRead (s.x r - 2) (s.setX r (s.x r - 2))
    rw [State.wordAt_setX] at hu
    obtain ⟨v, hv, h⟩ | ⟨c, hv, hc, h⟩ := hu
    · refine .inl ⟨v, hv, ?_⟩
      simp only [resolveAddr_autoDecIndirect, bind_apply, update_apply, readX_apply, State.x_setX_self, h]
      rfl
    · refine .inr ⟨c, s.setX r (s.x r - 2), hv, ?_, hc, ⟨rfl, rfl, rfl, rfl, rfl, rfl, rfl, rfl, le_refl _, le_refl _⟩⟩
      simp only [resolveAddr_autoDecIndirect, bind_apply, update_apply, readX_apply, State.x_setX_self, h]
  | index =>
    obtain ⟨w, hw, h⟩ | ⟨c, hw, hc, h⟩ := fetchWord_wordAt .indexFetch s
    · refine .inl ⟨s.indexBase r + w, by simp only [State.operandAddr, hw, Option.map_some], ?_⟩
      rw [resolveAddr_index, bind_ok h]
      simp only [bind_apply, readX_apply, State.x_after_index]
      rfl
    · refine .inr ⟨c, s, by simp only [State.operandAddr, hw, Option.map_none], ?_, hc, .refl s⟩
      rw [resolveAddr_index, bind_error h]
  | indexDeferred =>
    obtain ⟨w, hw, h⟩ | ⟨c, hw, hc, h⟩ := fetchWord_wordAt .indexFetch s
    · have hu := dataRead_wordAt .pointerRead (s.indexBase r + w) (s.setX .r7 (s.pc + 2)).countIfetch
      rw [State.wordAt_countIfetch, State.wordAt_setX] at hu
      obtain ⟨v, hv, g⟩ | ⟨c, hv, hc, g⟩ := hu
      · refine .inl ⟨v, by simp only [State.operandAddr, hw, Option.bind_some, hv], ?_⟩
        rw [resolveAddr_indexDeferred, bind_ok h]
        simp only [bind_apply, readX_apply, State.x_after_index, g]
        rfl
      · refine .inr ⟨c, (s.setX .r7 (s.pc + 2)).countIfetch,
          by simp only [State.operandAddr, hw, Option.bind_some, hv], ?_, hc,
          ⟨rfl, rfl, rfl, rfl, rfl, rfl, rfl, rfl, Nat.le_succ _, le_refl _⟩⟩
        rw [resolveAddr_indexDeferred, bind_ok h]
        simp only [bind_apply, readX_apply, State.x_after_index, g]
    · refine .inr ⟨c, s, by simp only [State.operandAddr, hw, Option.bind_none], ?_, hc, .refl s⟩
      rw [resolveAddr_indexDeferred, bind_error h]

/-! ## The whole resolution -/

@[simp] theorem State.operandTrace_nil (s : State) : s.operandTrace [] = [] := rfl
@[simp] theorem State.operandTrace_cons (s : State) (o : Operand) (rest : List Operand) :
    s.operandTrace (o :: rest) = (o, s.operandAddr o, s.operandValue o) :: (s.afterOperand o).operandTrace rest := rfl

theorem State.mem_afterOperand (s : State) (o : Operand) : (s.afterOperand o).mem = s.mem := rfl

theorem readFrame_afterOperand (s : State) (o : Operand) : ReadFrame s (s.afterOperand o) :=
  ⟨rfl, rfl, rfl, rfl, rfl, rfl, rfl, rfl, Nat.le_add_right _ _, Nat.le_add_right _ _⟩

/-- The value read of modes 1 to 7 and the autoincrement after it lead from the address to the end. -/
theorem postIncrement_afterAddr (o : Operand) (s : State) (h : o.mode ≠ .register) :
    postIncrement o (s.afterAddr o).countDread = .ok () (s.afterOperand o) := by
  obtain ⟨m, r⟩ := o
  cases m <;> first | exact absurd rfl h | rfl

theorem readValue_of_ne {o : Operand} (h : o.mode ≠ .register) (a : Word) :
    readValue o a = dataRead .dataRead a := by
  obtain ⟨m, r⟩ := o
  cases m <;> first | exact absurd rfl h | rfl

theorem discardValue_of_ne {o : Operand} (h : o.mode ≠ .register) (a : Word) :
    discardValue o a = dataReadDiscarded a := by
  obtain ⟨m, r⟩ := o
  cases m <;> first | exact absurd rfl h | rfl

/-- Everything `Resolve` can do. -/
theorem resolve_cases (o : Operand) (s : State) :
    (∃ a v, s.operandAddr o = some a ∧ s.operandValue o = some v ∧
      resolve o s = .ok ⟨⟨o.mode, o.reg, a⟩, v⟩ (s.afterOperand o)) ∨
    (∃ c t, s.operandValue o = none ∧ resolve o s = .error c t ∧ ReadFault s c ∧ ReadFrame s t) := by
  by_cases hm : o.mode = .register
  · obtain ⟨m, r⟩ := o
    subst hm
    exact .inl ⟨0, s.x r, rfl, rfl, rfl⟩
  · obtain ⟨a, ha, h⟩ | ⟨c, t, ha, h, hc, hf⟩ := resolveAddr_cases o s
    · have hu := dataRead_wordAt .dataRead a (s.afterAddr o)
      rw [State.wordAt_of_mem (s.mem_afterAddr o)] at hu
      obtain ⟨v, hv, g⟩ | ⟨c, hv, hc, g⟩ := hu
      · refine .inl ⟨a, v, ha, by simp [State.operandValue, hm, ha, hv], ?_⟩
        rw [resolve, bind_ok h, readValue_of_ne hm, bind_ok g, bind_ok (postIncrement_afterAddr o s hm)]
        rfl
      · refine .inr ⟨c, _, by simp [State.operandValue, hm, ha, hv], ?_, hc.of_mem (s.mem_afterAddr o),
          readFrame_afterAddr s o⟩
        rw [resolve, bind_ok h, readValue_of_ne hm, bind_error g]
    · refine .inr ⟨c, t, by simp [State.operandValue, hm, ha], ?_, hc, hf⟩
      rw [resolve, bind_error h]

/-- Everything the resolution of put_result can do. -/
theorem resolveTarget_cases (o : Operand) (s : State) :
    (∃ a, s.storeAddr o = some a ∧ resolveTarget o s = .ok ⟨o.mode, o.reg, a⟩ (s.afterOperand o)) ∨
    (∃ c t, s.storeAddr o = none ∧ resolveTarget o s = .error c t ∧ ReadFault s c ∧ ReadFrame s t) := by
  by_cases hm : o.mode = .register
  · obtain ⟨m, r⟩ := o
    subst hm
    exact .inl ⟨0, rfl, rfl⟩
  · obtain ⟨a, ha, h⟩ | ⟨c, t, ha, h, hc, hf⟩ := resolveAddr_cases o s
    · obtain ⟨ho, g⟩ | ⟨ho, g⟩ := dataReadDiscarded_cases a (s.afterAddr o)
      · refine .inl ⟨a, by simp [State.storeAddr, hm, ha, ho], ?_⟩
        rw [resolveTarget, bind_ok h, discardValue_of_ne hm, bind_ok g, bind_ok (postIncrement_afterAddr o s hm)]
        rfl
      · refine .inr ⟨.oddAddress a .dataRead, _, by simp [State.storeAddr, hm, ha, ho], ?_, .inl ⟨a, _, rfl, ho⟩,
          readFrame_afterAddr s o⟩
        rw [resolveTarget, bind_ok h, discardValue_of_ne hm, bind_error g]
    · refine .inr ⟨c, t, by simp [State.storeAddr, hm, ha], ?_, hc, hf⟩
      rw [resolveTarget, bind_error h]

/-! ## The commit -/

theorem commit_of_ne {t : Target} (h : t.mode ≠ .register) (v : Word) : commit t v = dataWrite t.addr v := by
  obtain ⟨m, r, a⟩ := t
  cases m <;> first | exact absurd rfl h | rfl

/-- A commit to a register, or to an even address, ends. -/
theorem commit_ok {o : Operand} {a : Word} (h : o.mode = .register ∨ isOdd a = false) (v : Word) (s : State) :
    commit ⟨o.mode, o.reg, a⟩ v s = .ok () (s.afterStore o a v) := by
  by_cases hm : o.mode = .register
  · obtain ⟨m, r⟩ := o
    subst hm
    rfl
  · have ha : isOdd a = false := h.resolve_left hm
    rw [commit_of_ne hm]
    obtain ⟨-, g⟩ | ⟨ho, -⟩ := dataWrite_cases a v s
    · rw [g]
      simp only [State.afterStore, if_neg hm]
      rfl
    · simp [ha] at ho

/-- An operand that could be read is at an even address. -/
theorem State.even_of_operandValue {s : State} {o : Operand} {a v : Word} (ha : s.operandAddr o = some a)
    (hv : s.operandValue o = some v) : o.mode = .register ∨ isOdd a = false := by
  by_cases hm : o.mode = .register
  · exact .inl hm
  · right
    simp only [State.operandValue, if_neg hm, ha, Option.bind_some, State.wordAt] at hv
    cases ho : isOdd a
    · rfl
    · simp [ho] at hv

/-- A destination that put_result reaches is at an even address. -/
theorem State.even_of_storeAddr {s : State} {o : Operand} {a : Word} (ha : s.storeAddr o = some a) :
    o.mode = .register ∨ isOdd a = false := by
  by_cases hm : o.mode = .register
  · exact .inl hm
  · right
    simp only [State.storeAddr, if_neg hm, Option.bind_eq_some_iff] at ha
    obtain ⟨b, -, hb⟩ := ha
    cases ho : isOdd b
    · simp [ho] at hb
      exact hb ▸ ho
    · simp [ho] at hb

/-- Everything put_result can do. -/
theorem putResult_cases (o : Operand) (v : Word) (s : State) :
    (∃ a, s.storeAddr o = some a ∧ putResult o v s = .ok () ((s.afterOperand o).afterStore o a v)) ∨
    (∃ c t, s.storeAddr o = none ∧ putResult o v s = .error c t ∧ ReadFault s c ∧ ReadFrame s t) := by
  obtain ⟨a, ha, h⟩ | ⟨c, t, ha, h, hc, hf⟩ := resolveTarget_cases o s
  · refine .inl ⟨a, ha, ?_⟩
    rw [putResult, bind_ok h, commit_ok (State.even_of_storeAddr ha)]
  · refine .inr ⟨c, t, ha, ?_, hc, hf⟩
    rw [putResult, bind_error h]

end Sys2Proof.Machine
end

