-- ==== Sys2Proof/Laws/Step.lean ====
section
/-! SUPPORT. What a step can do, said once. -/

namespace Sys2Proof.Machine

/-- The start of a step that fetches a word leaves `State.fetched`. -/
theorem beginStep_ok {s : State} {w : Word} (h : s.wordAt s.pc = some w) : beginStep s = .ok w s.fetched := by
  obtain ⟨v, ho, hm, hb⟩ | ⟨c, hc, -⟩ := beginStep_cases s
  · simp only [State.wordAt, ho, hm] at h
    cases h
    exact hb
  · simp [hc.wordAt] at h

/-- Everything a step from FETCHING can do: it stops at the fetch, or it runs the decoded instruction, or it skips a
word that is no instruction. -/
theorem step_cases {s : State} (hr : s.run = .fetching) :
    (∃ c, s.wordAt s.pc = none ∧ ReadStop s .instructionFetch s.pc c ∧ step s = raiseFatal c (s.setIa s.pc)) ∨
    (∃ w i, s.wordAt s.pc = some w ∧ decode w = .ok i ∧ step s = endInstruction (exec i s.fetched)) ∨
    (∃ w e, s.wordAt s.pc = some w ∧ decode w = .error e ∧ step s = .next (s.fetched.setRun .fetching)) := by
  unfold step
  rw [hr]
  obtain ⟨w, ho, hm, hb⟩ | ⟨c, hc, hb⟩ := beginStep_cases s
  · right
    have hw : s.wordAt s.pc = some w := by
      unfold State.wordAt
      rw [ho, hm]
      rfl
    rw [beginStep_ok hw]
    cases hd : decode w with
    | ok i => exact .inl ⟨w, i, hw, hd, by simp only [hd]⟩
    | error e => exact .inr ⟨w, e, hw, hd, by simp only [hd]; rfl⟩
  · exact .inl ⟨c, hc.wordAt, hc, by simp only [hb]⟩

/-- No step is enabled outside FETCHING. -/
theorem step_not_fetching {s : State} (hr : s.run ≠ .fetching) : step s = .refused (.noStepEnabled s.run) := by
  unfold step
  cases h : s.run with
  | fetching => exact absurd h hr
  | executing => rfl
  | halted => rfl
  | fatal record => rfl

@[simp] theorem endInstruction_next (s : State) :
    endInstruction (.next s) = .next (resumeFetching s.countInst) := rfl

theorem endInstruction_eq_next {o : Host.Outcome State Fault Refusal} {t : State} :
    endInstruction o = .next t ↔ ∃ u, o = .next u ∧ t = resumeFetching u.countInst := by
  cases o <;> simp [endInstruction, eq_comm]

theorem endInstruction_eq_fault {o : Host.Outcome State Fault Refusal} {f : Fault} :
    endInstruction o = .fault f ↔ o = .fault f := by
  cases o <;> simp [endInstruction]

/-- The end of a step touches the run state alone. -/
theorem resumeFetching_eq (s : State) :
    resumeFetching s = s ∨ (s.run = .executing ∧ resumeFetching s = s.setRun .fetching) := by
  unfold resumeFetching
  cases h : s.run <;> simp

/-! ## Runs -/

section Runs
variable {M : Host.Core} {s t : M.State}

theorem run_of_next (n : Nat) (h : M.step s = .next t) : M.run (n + 1) s = M.run n t := by
  rw [Host.Core.run, h]

theorem run_of_fault (n : Nat) {f : M.Fault} (h : M.step s = .fault f) : M.run (n + 1) s = .fault f := by
  rw [Host.Core.run, h]

theorem run_of_refused (n : Nat) {r : M.Refusal} (h : M.step s = .refused r) : M.run (n + 1) s = .refused r := by
  rw [Host.Core.run, h]

end Runs

end Sys2Proof.Machine
end

