-- ==== Sys2Proof/Laws/Exec.lean ====
section
/-! SUPPORT. Each arm of exec as the rule it runs. -/

namespace Sys2Proof.Machine

variable (src dst : Operand) (reg : Reg) (n : Nat) (offset : Int) (s : State)

theorem exec_halt : exec .halt s = runRule (update (fun t => t.setRun .halted)) s := rfl
theorem exec_mov : exec (.mov src dst) s = runRule (movRule src dst) s := rfl
theorem exec_cmp : exec (.cmp src dst) s = runRule (cmpRule src dst) s := rfl
theorem exec_add : exec (.add src dst) s = runRule (addRule src dst) s := rfl
theorem exec_sub : exec (.sub src dst) s = runRule (subRule src dst) s := rfl
theorem exec_sob : exec (.sob reg n) s = runRule (sobRule reg n) s := rfl
theorem exec_br : exec (.br offset) s = runRule (brRule offset) s := rfl
theorem exec_bne : exec (.bne offset) s = runRule (bneRule offset) s := rfl
theorem exec_beq : exec (.beq offset) s = runRule (beqRule offset) s := rfl
theorem exec_asr : exec (.asr dst) s = runRule (asrRule dst) s := rfl
theorem exec_asl : exec (.asl dst) s = runRule (aslRule dst) s := rfl

theorem branchTo_apply : branchTo offset s =
    .ok () (s.setX .r7 (mask16 ((s.pc.toNat : Int) + 2 * offset))).countTaken := rfl

end Sys2Proof.Machine
end

