-- ==== Sys2Proof/Laws/Flags.lean ====
section
/-! SUPPORT. The 16-bit results of the ALU as bit-vector arithmetic, and the sign bit as a comparison. -/

namespace Sys2Proof.Machine

theorem mask16_add (s d : Word) : mask16 ((s.toNat : Int) + d.toNat) = s + d := by
  apply BitVec.eq_of_toNat_eq
  simp only [mask16, BitVec.toNat_ofInt, BitVec.toNat_add]
  omega

theorem mask16_sub (a b : Word) : mask16 ((a.toNat : Int) - b.toNat) = a - b := by
  apply BitVec.eq_of_toNat_eq
  have := a.isLt
  have := b.isLt
  simp only [mask16, BitVec.toNat_ofInt, BitVec.toNat_sub]
  omega

@[simp] theorem aluAdd_r (s d : Word) : (aluAdd s d).r = s + d := mask16_add s d

@[simp] theorem aluSub_r (a b : Word) : (aluSub a b).r = a - b := mask16_sub a b

@[simp] theorem aluAsl_r (v : Word) : (aluAsl v).r = v + v := by
  have h : (2 * (v.toNat : Int)) = v.toNat + v.toNat := by omega
  simp only [aluAsl, h, mask16_add]

/-- The PC plus a displacement, reduced (45_branches.md R171). -/
theorem mask16_add_int (p : Word) (d : Int) : mask16 ((p.toNat : Int) + d) = p + BitVec.ofInt 16 d := by
  apply BitVec.eq_of_toNat_eq
  simp only [mask16, BitVec.toNat_add, BitVec.toNat_ofInt]
  omega

/-- ASR's result as a number (46_shifts.md R190). -/
theorem aluAsr_toNat (v : Word) : (aluAsr v).r.toNat = v.toNat / 32768 * 32768 + v.toNat / 2 := by
  have := v.isLt
  have hs : (v.extractLsb' 15 1).toNat = v.toNat / 32768 % 2 := by
    rw [BitVec.extractLsb'_toNat, Nat.shiftRight_eq_div_pow]
  have hr : (v.extractLsb' 1 15).toNat = v.toNat / 2 % 32768 := by
    rw [BitVec.extractLsb'_toNat, Nat.shiftRight_eq_div_pow]
  change (v.extractLsb' 15 1 ++ v.extractLsb' 1 15).toNat = _
  rw [BitVec.toNat_append, ← Nat.shiftLeft_add_eq_or_of_lt (by omega), Nat.shiftLeft_eq]
  omega

theorem toInt_eq_ite (v : Word) : v.toInt = if v.toNat < 32768 then (v.toNat : Int) else v.toNat - 65536 := by
  rw [BitVec.toInt_eq_toNat_cond]
  split <;> split <;> omega

@[simp] theorem aluAsr_r (v : Word) : (aluAsr v).r = v.sshiftRight 1 := by
  apply BitVec.eq_of_toInt_eq
  have := v.isLt
  have h := aluAsr_toNat v
  rw [BitVec.toInt_sshiftRight, toInt_eq_ite, toInt_eq_ite, h, Int.shiftRight_eq_div_pow]
  split <;> split <;> omega

/-- The sign bit as an inequality. -/
theorem sign_eq (v : Word) : sign v = decide (32768 ≤ v.toNat) := by
  have h : sign v = v.msb := rfl
  rw [h, BitVec.msb_eq_decide]

end Sys2Proof.Machine
end

