-- ==== Sys2Proof/Laws/PerInstr.lean ====
section
/-! SUPPORT. The family TableRow: the word of every instruction matches the mask and match values of its row of spec
30_encoding.md R74. -/

namespace Sys2Proof.Laws.TableRow

/-- The mask of an instruction's row (R74). -/
def mask : Instr → Word
  | .halt => 0o177777
  | .mov _ _ => 0o170000
  | .cmp _ _ => 0o170000
  | .add _ _ => 0o170000
  | .sub _ _ => 0o170000
  | .sob _ _ => 0o177000
  | .br _ => 0o177400
  | .bne _ => 0o177400
  | .beq _ => 0o177400
  | .asr _ => 0o177700
  | .asl _ => 0o177700

/-- The match value of an instruction's row (R74). -/
def pattern : Instr → Word
  | .halt => 0o000000
  | .mov _ _ => 0o010000
  | .cmp _ _ => 0o020000
  | .add _ _ => 0o060000
  | .sub _ _ => 0o160000
  | .sob _ _ => 0o077000
  | .br _ => 0o000400
  | .bne _ => 0o001000
  | .beq _ => 0o001400
  | .asr _ => 0o006200
  | .asl _ => 0o006300

/-- The instruction's word matches its row: "(w & mask) == match". -/
def Statement (i : Instr) : Prop := encode i &&& mask i = pattern i

theorem dop (op : BitVec 4) (s d : Operand) : (encodeDop op s d &&& 0o170000#16).toNat = op.toNat * 4096 := by
  have := s.mode.bits.isLt
  have := s.reg.bits.isLt
  have := d.mode.bits.isLt
  have := d.reg.bits.isLt
  rw [and_mask12, encodeDop_toNat]
  omega

theorem sop (op : BitVec 10) (d : Operand) : (encodeSop op d &&& 0o177700#16).toNat = op.toNat * 64 := by
  have := d.mode.bits.isLt
  have := d.reg.bits.isLt
  rw [and_mask6, encodeSop_toNat]
  omega

theorem br8 (op : BitVec 8) (offset : Int) : (encodeBr8 op offset &&& 0o177400#16).toNat = op.toNat * 256 := by
  have := (BitVec.ofInt 8 offset).isLt
  rw [and_mask8, encodeBr8_toNat]
  omega

theorem halt : Statement .halt := rfl

theorem mov (src dst : Operand) : Statement (.mov src dst) := BitVec.eq_of_toNat_eq (dop _ src dst)

theorem cmp (src dst : Operand) : Statement (.cmp src dst) := BitVec.eq_of_toNat_eq (dop _ src dst)

theorem add (src dst : Operand) : Statement (.add src dst) := BitVec.eq_of_toNat_eq (dop _ src dst)

theorem sub (src dst : Operand) : Statement (.sub src dst) := BitVec.eq_of_toNat_eq (dop _ src dst)

theorem sob (reg : Reg) (offset : Nat) : Statement (.sob reg offset) := by
  apply BitVec.eq_of_toNat_eq
  have := reg.bits.isLt
  change (encodeSob6 _ reg offset &&& 0o177000#16).toNat = 0o077000
  rw [and_mask9, encodeSob6_toNat]
  simp only [BitVec.toNat_ofNat]
  omega

theorem br (offset : Int) : Statement (.br offset) := BitVec.eq_of_toNat_eq (br8 _ offset)

theorem bne (offset : Int) : Statement (.bne offset) := BitVec.eq_of_toNat_eq (br8 _ offset)

theorem beq (offset : Int) : Statement (.beq offset) := BitVec.eq_of_toNat_eq (br8 _ offset)

theorem asr (dst : Operand) : Statement (.asr dst) := BitVec.eq_of_toNat_eq (sop _ dst)

theorem asl (dst : Operand) : Statement (.asl dst) := BitVec.eq_of_toNat_eq (sop _ dst)

end Sys2Proof.Laws.TableRow
end

