-- ==== Sys2Proof/Tests/Slice0.lean ====
section
/-! SUPPORT. The model's own tests. The expected words and results are those of spec/95_test_vectors.md (sections named
at each group) or of the numbered rules; each statement with hypotheses has a witness here. -/

namespace Sys2Proof.Tests

open Sys2Proof Sys2Proof.Machine

/-! ## Helpers -/

/-- Reset with these words placed from address 0 on. -/
def boot (words : List Word) : State := State.reset.setMem (placeImage 0 words [])

/-- One more word, at byte address `a`. -/
def cell (a v : Word) (s : State) : State := s.setMem (s.mem.put (wordIndex a) v)

/-- The test `p` of the next state, if the step has one. -/
def after (s : State) (p : State → Bool) : Bool :=
  match step s with
  | .next t => p t
  | .fault _ => false
  | .refused _ => false

/-- The test `p` of the fault, if the step ends in one. -/
def stops (s : State) (p : Fault → Bool) : Bool :=
  match step s with
  | .next _ => false
  | .fault f => p f
  | .refused _ => false

/-- The flags as N, Z, V, C. -/
def nzvc (s : State) : Bool × Bool × Bool × Bool := (s.flags.n, s.flags.z, s.flags.v, s.flags.c)

/-- `R0 op R1` at address 0, with V and C set at the start. -/
def two (w r0 r1 : Word) : State :=
  (((boot [w]).setX .r0 r0).setX .r1 r1).setFlags ⟨false, false, true, true⟩

/-- The common start of section 2.6: the words at 01000, mem[0200] = 0300, mem[0300] = 0111. -/
def demo (words : List Word) (r3 : Word) : State :=
  (((cell 0o300 0o111 (cell 0o200 0o300 (State.reset.setMem (placeImage 0o400 words [])))).setX .r3 r3).setX .r4
    0o7777).setX .r7 0o1000

/-- What section 2.6 lists: R4, R3, the PC and the counters of fetches, reads and writes. -/
def view (s : State) : Word × Word × Word × Nat × Nat × Nat :=
  (s.x .r4, s.x .r3, s.pc, s.cnt.ifetch, s.cnt.dread, s.cnt.dwrite)

/-! ## WellFormed refuses -/

theorem test_br_offset_past_127_is_ill_formed : (Instr.br 128).wellFormed = false := by decide
theorem test_br_offset_below_minus_128_is_ill_formed : (Instr.br (-129)).wellFormed = false := by decide
theorem test_bne_offset_past_127_is_ill_formed : (Instr.bne 128).wellFormed = false := by decide
theorem test_beq_offset_below_minus_128_is_ill_formed : (Instr.beq (-129)).wellFormed = false := by decide
theorem test_sob_offset_past_63_is_ill_formed : (Instr.sob .r0 64).wellFormed = false := by decide
theorem test_limits_are_well_formed :
    (Instr.br 127).wellFormed = true ∧ (Instr.bne (-128)).wellFormed = true ∧ (Instr.sob .r7 63).wellFormed = true := by
  decide

/-! ## Words written out bit by bit from 30_encoding.md R72 to R78 -/

theorem test_word_halt : decode 0b0000000000000000 = .ok .halt := rfl
theorem test_word_mov : decode 0b0001_010_011_110_101 = .ok (.mov ⟨.autoInc, .r3⟩ ⟨.index, .r5⟩) := rfl
theorem test_word_cmp : decode 0b0010_001_110_111_111 = .ok (.cmp ⟨.indirect, .r6⟩ ⟨.indexDeferred, .r7⟩) := rfl
theorem test_word_add : decode 0b0110_000_001_100_010 = .ok (.add ⟨.register, .r1⟩ ⟨.autoDec, .r2⟩) := rfl
theorem test_word_sub : decode 0b1110_101_000_011_100 = .ok (.sub ⟨.autoDecIndirect, .r0⟩ ⟨.autoIncIndirect, .r4⟩) := rfl
theorem test_word_sob : decode 0b0111111_110_100001 = .ok (.sob .r6 33) := rfl
theorem test_word_br : decode 0b00000001_10000000 = .ok (.br (-128)) := rfl
theorem test_word_bne : decode 0b00000010_01111111 = .ok (.bne 127) := rfl
theorem test_word_beq : decode 0b00000011_11111101 = .ok (.beq (-3)) := rfl
theorem test_word_asr : decode 0b0000110010_101_110 = .ok (.asr ⟨.autoDecIndirect, .r6⟩) := rfl
theorem test_word_asl : decode 0b0000110011_010_010 = .ok (.asl ⟨.autoInc, .r2⟩) := rfl

/-- Section 2.11: the first or last word of each undefined range. -/
theorem test_undefined_words :
    [0o000377, 0o002000, 0o006177, 0o006400, 0o030000, 0o076777, 0o100000, 0o170000].map decode =
      [0o000377, 0o002000, 0o006177, 0o006400, 0o030000, 0o076777, 0o100000, 0o170000].map
        (fun w => .error (.noRow w)) := rfl

/-- The table's rows decode through the host's entry point, bits above the row's width ignored. -/
theorem test_decode_table_word :
    decodeTableWord 16 0o160001 = some (.sub ⟨.register, .r0⟩ ⟨.register, .r1⟩) ∧
    decodeTableWord 16 0o005000 = none := ⟨rfl, rfl⟩

/-! ## One step each: sections 2.1 to 2.10 -/

/-- 2.1: the PC wraps past the last word. -/
theorem test_halt_at_the_last_word :
    after ((cell 0o177776 0 (boot [])).setX .r7 0o177776)
      (fun t => decide (t.run = .halted ∧ t.pc = 0 ∧ t.cnt = ⟨1, 1, 0, 0, 0, 0⟩)) = true := by decide

/-- 2.5: MOV keeps C and clears V. -/
theorem test_mov_keeps_carry :
    after (two 0o010001 0o100000 0o1234)
      (fun t => decide (t.x .r1 = 0o100000 ∧ nzvc t = (true, false, false, true))) = true := by decide

/-- 2.6: a memory destination through the PC, with its counted pre-read. -/
theorem test_mov_immediate_to_pc_relative :
    after (boot [0o012767, 0o005555, 0o000002])
      (fun t => decide (t.mem.get 4 = some 0o5555 ∧ t.pc = 6 ∧ t.cnt = ⟨1, 2, 2, 1, 0, 0⟩)) = true := by decide

/-- 2.2: `077777 - 0177777` overflows and borrows. -/
theorem test_cmp_overflow :
    after (two 0o020001 0o077777 0o177777)
      (fun t => decide (nzvc t = (true, false, true, true) ∧ t.x .r0 = 0o077777 ∧ t.x .r1 = 0o177777)) = true := by
  decide

/-- 2.2: `-1 - 1` sets neither V nor C. -/
theorem test_cmp_no_borrow :
    after (two 0o020001 0o177777 1) (fun t => decide (nzvc t = (true, false, false, false))) = true := by decide

/-- 2.3: two most negative words add to 0 with Z, V and C. -/
theorem test_add_overflow_to_zero :
    after (two 0o060001 0o100000 0o100000)
      (fun t => decide (t.x .r1 = 0 ∧ nzvc t = (false, true, true, true))) = true := by decide

/-- 2.3: a memory destination is read once and written once. -/
theorem test_add_to_memory :
    after (cell 0o200 5 (two 0o060011 2 0o200))
      (fun t => decide (t.mem.get 0o100 = some 7 ∧ t.x .r1 = 0o200 ∧ t.cnt = ⟨1, 1, 1, 1, 0, 0⟩)) = true := by decide

/-- 2.4: destination minus source. -/
theorem test_sub_borrow :
    after (two 0o160001 5 3) (fun t => decide (t.x .r1 = 0o177776 ∧ nzvc t = (true, false, false, true))) = true := by
  decide

/-- 2.4: `077777 - (-1)` overflows and borrows. -/
theorem test_sub_overflow :
    after (two 0o160001 0o177777 0o077777)
      (fun t => decide (t.x .r1 = 0o100000 ∧ nzvc t = (true, false, true, true))) = true := by decide

/-- 2.9: taken, back by twice the offset. -/
theorem test_sob_taken :
    after ((cell 0o12 0o077102 ((boot []).setX .r1 3)).setX .r7 0o12)
      (fun t => decide (t.x .r1 = 2 ∧ t.pc = 0o10 ∧ t.cnt = ⟨1, 1, 0, 0, 1, 1⟩)) = true := by decide

/-- 2.9: on R7 the branch starts from the decremented PC. -/
theorem test_sob_on_the_pc :
    after (demo [0o077701] 0) (fun t => decide (t.pc = 0o777 ∧ t.cnt.br = 1 ∧ t.cnt.taken = 1)) = true := by decide

/-- 2.8: the farthest branch back wraps. -/
theorem test_br_wraps :
    after ((cell 0o100 0o000600 (boot [])).setX .r7 0o100) (fun t => decide (t.pc = 0o177502)) = true := by decide

/-- 2.8: not taken, counted. -/
theorem test_bne_not_taken :
    after ((demo [0o001375] 0).setFlags ⟨false, true, false, false⟩)
      (fun t => decide (t.pc = 0o1002 ∧ t.cnt = ⟨1, 1, 0, 0, 1, 0⟩)) = true := by decide

theorem test_beq_taken :
    after ((demo [0o001775] 0).setFlags ⟨false, true, false, false⟩)
      (fun t => decide (t.pc = 0o774 ∧ t.cnt = ⟨1, 1, 0, 0, 1, 1⟩)) = true := by decide

/-- 2.10. -/
theorem test_asr_of_one :
    after (two 0o006200 1 0) (fun t => decide (t.x .r0 = 0 ∧ nzvc t = (false, true, true, true))) = true := by decide

theorem test_asr_of_most_negative :
    after (two 0o006200 0o100000 0) (fun t => decide (t.x .r0 = 0o140000 ∧ nzvc t = (true, false, true, false))) = true := by
  decide

theorem test_asl_drops_the_sign :
    after (two 0o006300 0o125252 0) (fun t => decide (t.x .r0 = 0o052524 ∧ nzvc t = (false, false, true, true))) = true := by
  decide

/-- 2.10: the register is incremented once. -/
theorem test_asl_of_memory :
    after (cell 0o200 3 ((boot [0o006322]).setX .r2 0o200))
      (fun t => decide (t.mem.get 0o100 = some 6 ∧ t.x .r2 = 0o202 ∧ t.cnt = ⟨1, 1, 1, 1, 0, 0⟩)) = true := by decide

/-! ## The eight modes: section 2.6 -/

theorem test_mode_0 : after (demo [0o010304] 0o200)
    (fun t => decide (view t = (0o200, 0o200, 0o1002, 1, 0, 0))) = true := by decide
theorem test_mode_1 : after (demo [0o011304] 0o200)
    (fun t => decide (view t = (0o300, 0o200, 0o1002, 1, 1, 0))) = true := by decide
theorem test_mode_2 : after (demo [0o012304] 0o200)
    (fun t => decide (view t = (0o300, 0o202, 0o1002, 1, 1, 0))) = true := by decide
theorem test_mode_3 : after (demo [0o013304] 0o200)
    (fun t => decide (view t = (0o111, 0o202, 0o1002, 1, 2, 0))) = true := by decide
theorem test_mode_4 : after (demo [0o014304] 0o202)
    (fun t => decide (view t = (0o300, 0o200, 0o1002, 1, 1, 0))) = true := by decide
theorem test_mode_5 : after (demo [0o015304] 0o202)
    (fun t => decide (view t = (0o111, 0o200, 0o1002, 1, 2, 0))) = true := by decide
theorem test_mode_6 : after (demo [0o016304, 2] 0o176)
    (fun t => decide (view t = (0o300, 0o176, 0o1004, 2, 1, 0))) = true := by decide
theorem test_mode_7 : after (demo [0o017304, 2] 0o176)
    (fun t => decide (view t = (0o111, 0o176, 0o1004, 2, 2, 0))) = true := by decide

/-- R128, the same register in both specifiers. -/
theorem test_same_register_twice :
    after (cell 0o100 7 (cell 0o102 0o11 ((boot [0o012020]).setX .r0 0o100)))
      (fun t => decide (t.mem.get 0o41 = some 7 ∧ t.x .r0 = 0o104 ∧ t.cnt = ⟨1, 1, 2, 1, 0, 0⟩)) = true := by decide

/-! ## Stops and decode errors: sections 1.7 and 2.7 -/

theorem test_odd_value_read_is_fatal :
    stops ((boot [0o011001]).setX .r0 1)
      (fun f => decide (f.left.run = .fatal ⟨.oddAddress 1 .dataRead, 0⟩ ∧ f.left.pc = 2 ∧
        f.left.cnt = ⟨0, 1, 0, 0, 0, 0⟩)) = true := by decide

theorem test_odd_pc_is_fatal :
    stops ((boot []).setX .r7 1)
      (fun f => decide (f.left.run = .fatal ⟨.oddAddress 1 .instructionFetch, 1⟩ ∧
        f.left.cnt = ⟨0, 0, 0, 0, 0, 0⟩)) = true := by decide

theorem test_odd_destination_stops_before_the_write :
    stops (two 0o010011 0o200 1)
      (fun f => decide (f.left.run = .fatal ⟨.oddAddress 1 .dataRead, 0⟩ ∧ f.left.pc = 2 ∧
        nzvc f.left = (false, false, true, true) ∧ f.left.cnt.dwrite = 0 ∧ f.left.cnt.inst = 0)) = true := by decide

theorem test_decode_error_is_skipped :
    after (two 0o005000 1 2)
      (fun t => decide (t.run = .fetching ∧ t.pc = 2 ∧ t.x .r0 = 1 ∧ nzvc t = (false, false, true, true) ∧
        t.cnt = ⟨0, 1, 0, 0, 0, 0⟩)) = true := by decide

/-- From reset with nothing placed the first fetch uses a word that holds no value (10_state.md R39). -/
theorem test_reset_without_an_image_stops :
    stops State.reset (fun f => decide (f.left.run = .fatal ⟨.uninitRead 0, 0⟩)) = true := by decide

theorem test_the_placed_word_runs :
    after (State.reset.withFetchWord 16 0o000000) (fun t => decide (t.run = .halted)) = true := by decide

theorem test_launch_refuses_a_long_image :
    ({ Launch.default with initMem := [(32768, 0)] } : Launch).accepted = false := by decide

theorem test_trace_event :
    traceEvent (two 0o060001 5 3) =
      some ⟨0, 0o060001, "ADD", [⟨⟨.register, .r0, 0⟩, some 5⟩, ⟨⟨.register, .r1, 0⟩, some 3⟩], 0⟩ := by decide

/-! ## Witnesses: what meets the hypotheses of each statement -/

theorem witness_DecodeOfEncodeIsTheInstruction :
    [Instr.halt, .mov ⟨.indexDeferred, .r7⟩ ⟨.register, .r0⟩, .sob .r7 63, .sob .r0 0, .br 127, .bne (-128), .beq 0,
      .asl ⟨.autoDec, .r6⟩].all Instr.wellFormed = true := by decide

theorem witness_EncodeOfDecodeIsTheWord :
    decode 0o077777 = .ok (.sob .r7 63) ∧ decode 0o000400 = .ok (.br 0) := ⟨rfl, rfl⟩

theorem witness_MemReadChecksTheAddressAndReturnsTheWord :
    isOdd 1 = true ∧ isOdd 0o177777 = true ∧ isOdd 0 = false ∧ isOdd 0o177776 = false := by decide

theorem witness_MemWriteRoundTripsAndWritesOneWord :
    isOdd 1 = true ∧ isOdd 0o177776 = false ∧ isOdd 0 = false ∧ (0 : Word) ≠ 0o177776 := by decide

theorem witness_FetchWordAdvancesThePc :
    isOdd ((boot []).setX .r7 0o177777).pc = true ∧
    (isOdd (boot []).pc = false ∧ (boot []).mem.get (wordIndex (boot []).pc) = none) ∧
    isOdd (cell 0o177776 5 ((boot []).setX .r7 0o177776)).pc = false ∧
    (cell 0o177776 5 ((boot []).setX .r7 0o177776)).mem.get (wordIndex 0o177776) = some 5 := by decide

/-- Modes 1 to 3, then 4 and 5. -/
theorem witness_ResolverFollowsTheModeTable :
    ((demo [] 0o200).wordAt 0o200 = some 0o300 ∧ (demo [] 0o200).wordAt 0o300 = some 0o111) ∧
    (demo [] 0o202).wordAt ((demo [] 0o202).x .r3 - 2) = some 0o300 := by decide

/-- Modes 6 and 7, then 7 on R7. -/
theorem witness_IndexModesConsumeTheWordAtThePc :
    ((demo [2] 0o176).wordAt (demo [2] 0o176).pc = some 2 ∧
      (demo [2] 0o176).wordAt (((demo [2] 0o176).setX .r7 0o1002).x .r3 + 2) = some 0o300) ∧
    ((boot [2, 0, 0o10, 0, 5]).wordAt 0 = some 2 ∧
      (boot [2, 0, 0o10, 0, 5]).wordAt (((boot [2, 0, 0o10, 0, 5]).setX .r7 2).x .r7 + 2) = some 0o10 ∧
      (boot [2, 0, 0o10, 0, 5]).wordAt 0o10 = some 5) := by decide

theorem witness_ModesChangeOnlyTheirRegister :
    (∃ p t, resolve ⟨.register, .r7⟩ (demo [] 0o200) = .ok p t) ∧
    (∃ p t, resolve ⟨.autoInc, .r3⟩ (demo [] 0o200) = .ok p t) ∧
    (∃ p t, resolve ⟨.autoIncIndirect, .r3⟩ (demo [] 0o200) = .ok p t) ∧
    (∃ p t, resolve ⟨.autoDec, .r3⟩ (demo [] 0o202) = .ok p t) ∧
    (∃ p t, resolve ⟨.autoDecIndirect, .r3⟩ (demo [] 0o202) = .ok p t) :=
  ⟨⟨_, _, rfl⟩, ⟨_, _, rfl⟩, ⟨_, _, rfl⟩, ⟨_, _, rfl⟩, ⟨_, _, rfl⟩⟩

/-- An odd register; an odd pointer in modes 3 and 5; an odd PC; an odd indexed address, on R3 and on R7; an odd pointer
in mode 7. -/
theorem witness_OddAddressStopsNameTheAccess :
    isOdd ((demo [] 1).x .r3) = true ∧
    ((cell 0o200 0o301 (demo [] 0o200)).wordAt ((demo [] 0o200).x .r3) = some 0o301 ∧ isOdd 0o301 = true) ∧
    (cell 0o200 0o301 (demo [] 0o202)).wordAt ((demo [] 0o202).x .r3 - 2) = some 0o301 ∧
    isOdd ((boot []).setX .r7 0o177777).pc = true ∧
    ((demo [3] 0o176).wordAt (demo [3] 0o176).pc = some 3 ∧ isOdd ((demo [3] 0o176).indexBase .r3 + 3) = true) ∧
    ((boot [1]).wordAt (boot [1]).pc = some 1 ∧ isOdd ((boot [1]).indexBase .r7 + 1) = true) ∧
    ((cell 0o200 0o301 (demo [2] 0o176)).wordAt (demo [2] 0o176).pc = some 2 ∧
      (cell 0o200 0o301 (demo [2] 0o176)).wordAt ((demo [2] 0o176).indexBase .r3 + 2) = some 0o301) := by decide

theorem witness_PreReadOfADestinationNeedsNoValue :
    isOdd ((demo [] 0o100).x .r3) = false ∧ (demo [] 0o100).mem.get (wordIndex 0o100) = none := by decide

theorem witness_DestinationSeesTheSourcesSideEffects :
    (demo [] 0o200).wordAt ((demo [] 0o200).x .r3) = some 0o300 ∧
    isOdd ((demo [] 0o200).x .r3) = false ∧
    ((cell 0o176 9 (demo [] 0o202)).wordAt ((demo [] 0o202).x .r3 - 2) = some 0o300 ∧
      (cell 0o176 9 (demo [] 0o202)).wordAt ((demo [] 0o202).x .r3 - 4) = some 9) := by decide

theorem witness_ShiftsHalveAndDoubleTheSignedValue :
    (aluAsl 0o037777).flags.v = false ∧ (aluAsl 0o140000).flags.v = false ∧ (aluAsl 0o040000).flags.v = true := by
  decide

/-- It completes into memory that holds no value; it stops on a source without a value and on an odd destination. -/
theorem witness_MovStoresTheSourceValue :
    ((demo [] 0o200).operandValue ⟨.autoInc, .r3⟩ = some 0o300 ∧
      ((demo [] 0o200).afterOperand ⟨.autoInc, .r3⟩).storeAddr ⟨.indirect, .r3⟩ = some 0o202) ∧
    (demo [] 0o100).operandValue ⟨.indirect, .r3⟩ = none ∧
    ((demo [] 1).afterOperand ⟨.register, .r0⟩).storeAddr ⟨.indirect, .r3⟩ = none := by decide

theorem witness_CmpSetsTheFlagsOfTheDifference :
    ((demo [] 0o200).operandValue ⟨.indirect, .r3⟩ = some 0o300 ∧
      ((demo [] 0o200).afterOperand ⟨.indirect, .r3⟩).operandValue ⟨.autoIncIndirect, .r3⟩ = some 0o111) ∧
    (demo [] 1).operandValue ⟨.indirect, .r3⟩ = none ∧
    ((demo [] 0o200).afterOperand ⟨.autoInc, .r3⟩).operandValue ⟨.indirect, .r3⟩ = none := by decide

theorem witness_AddStoresTheSum :
    ((demo [] 0o200).operandValue ⟨.register, .r4⟩ = some 0o7777 ∧
      ((demo [] 0o200).afterOperand ⟨.register, .r4⟩).operandAddr ⟨.indirect, .r3⟩ = some 0o200 ∧
      ((demo [] 0o200).afterOperand ⟨.register, .r4⟩).operandValue ⟨.indirect, .r3⟩ = some 0o300) ∧
    (demo [] 1).operandValue ⟨.autoDec, .r3⟩ = none ∧
    ((demo [] 1).afterOperand ⟨.register, .r4⟩).operandValue ⟨.indirect, .r3⟩ = none := by decide

theorem witness_SubStoresTheDifference :
    ((demo [2] 0o176).operandValue ⟨.index, .r3⟩ = some 0o300 ∧
      ((demo [2] 0o176).afterOperand ⟨.index, .r3⟩).operandAddr ⟨.register, .r7⟩ = some 0 ∧
      ((demo [2] 0o176).afterOperand ⟨.index, .r3⟩).operandValue ⟨.register, .r7⟩ = some 0o1002) ∧
    (demo [] 0o176).operandValue ⟨.index, .r3⟩ = none ∧
    ((demo [] 1).afterOperand ⟨.register, .r4⟩).operandValue ⟨.autoInc, .r3⟩ = none := by decide

theorem witness_AsrShiftsRightKeepingTheSign :
    ((demo [] 0o202).operandAddr ⟨.autoDecIndirect, .r3⟩ = some 0o300 ∧
      (demo [] 0o202).operandValue ⟨.autoDecIndirect, .r3⟩ = some 0o111) ∧
    (demo [] 1).operandValue ⟨.indirect, .r3⟩ = none := by decide

theorem witness_AslShiftsLeft :
    ((demo [] 0).operandAddr ⟨.register, .r3⟩ = some 0 ∧ (demo [] 0).operandValue ⟨.register, .r3⟩ = some 0) ∧
    (demo [] 0o100).operandValue ⟨.autoInc, .r3⟩ = none := by decide

theorem witness_SobDecrementsAndBranchesBack :
    (demo [] 1).x .r3 - 1 = 0 ∧ (demo [] 0).x .r3 - 1 ≠ 0 ∧ (demo [] 2).x .r3 - 1 ≠ 0 := by decide

/-- BNE taken and BEQ not taken, then BNE not taken and BEQ taken. -/
theorem witness_BneBranchesWhenZIsClear_BeqBranchesWhenZIsSet :
    (boot []).flags.z = false ∧ ((boot []).setFlags ⟨true, true, true, true⟩).flags.z = true := by decide

theorem witness_BranchesKeepThePcParity :
    (∃ t, exec (.br 1) (boot []) = .next t) ∧ (∃ t, exec (.bne (-128)) (boot []) = .next t) ∧
    ∃ t, exec (.beq 127) (boot []) = .next t := ⟨⟨_, rfl⟩, ⟨_, rfl⟩, ⟨_, rfl⟩⟩

/-- A register and a memory destination; the address of the second is what `resolveAddr` gives. -/
theorem witness_MovAddSubFrame :
    (∃ t, exec (.mov ⟨.register, .r3⟩ ⟨.register, .r1⟩) (demo [] 0o200) = .next t) ∧
    (∃ t, exec (.add ⟨.register, .r4⟩ ⟨.indirect, .r3⟩) (demo [] 0o200) = .next t) ∧
    (∃ t, exec (.sub ⟨.register, .r4⟩ ⟨.autoDec, .r3⟩) (demo [] 0o202) = .next t) ∧
    ∃ p u a w, resolve ⟨.register, .r4⟩ (demo [] 0o202) = .ok p u ∧
      resolveAddr ⟨.autoDec, .r3⟩ u = .ok a w ∧ a = 0o200 :=
  ⟨⟨_, rfl⟩, ⟨_, rfl⟩, ⟨_, rfl⟩, ⟨_, _, _, _, rfl, rfl, rfl⟩⟩

theorem witness_ShiftFrame :
    (∃ t, exec (.asr ⟨.register, .r3⟩) (demo [] 0o200) = .next t) ∧
    (∃ t, exec (.asl ⟨.autoIncIndirect, .r3⟩) (demo [] 0o200) = .next t) ∧
    ∃ a w, resolveAddr ⟨.autoIncIndirect, .r3⟩ (demo [] 0o200) = .ok a w ∧ a = 0o300 :=
  ⟨⟨_, rfl⟩, ⟨_, rfl⟩, ⟨_, _, rfl, rfl⟩⟩

theorem witness_CmpFrame :
    ∃ t, exec (.cmp ⟨.autoInc, .r3⟩ ⟨.register, .r1⟩) (demo [] 0o200) = .next t := ⟨_, rfl⟩

theorem witness_ControlInstructionsFrame :
    (∃ t, exec .halt (boot []) = .next t) ∧ (∃ t, exec (.sob .r1 2) (boot []) = .next t) ∧
    (∃ t, exec (.br (-1)) (boot []) = .next t) ∧ (∃ t, exec (.bne 3) (boot []) = .next t) ∧
    ∃ t, exec (.beq 3) (boot []) = .next t := ⟨⟨_, rfl⟩, ⟨_, rfl⟩, ⟨_, rfl⟩, ⟨_, rfl⟩, ⟨_, rfl⟩⟩

theorem witness_StepRunsTheDecodedInstruction :
    ((two 0o060001 5 3).run = .fetching ∧ (two 0o060001 5 3).wordAt (two 0o060001 5 3).pc = some 0o060001 ∧
      decode 0o060001 = .ok (.add ⟨.register, .r0⟩ ⟨.register, .r1⟩) ∧
      ∃ t, exec (.add ⟨.register, .r0⟩ ⟨.register, .r1⟩) (two 0o060001 5 3).fetched = .next t) ∧
    ((two 0o006210 1 0).run = .fetching ∧ (two 0o006210 1 0).wordAt (two 0o006210 1 0).pc = some 0o006210 ∧
      decode 0o006210 = .ok (.asr ⟨.indirect, .r0⟩) ∧
      ∃ f, exec (.asr ⟨.indirect, .r0⟩) (two 0o006210 1 0).fetched = .fault f) :=
  ⟨⟨rfl, rfl, rfl, ⟨_, rfl⟩⟩, ⟨rfl, rfl, rfl, ⟨_, rfl⟩⟩⟩

theorem witness_DecodeErrorIsSkipped :
    (boot [0o177777]).run = .fetching ∧ (boot [0o177777]).wordAt (boot [0o177777]).pc = some 0o177777 ∧
    decode 0o177777 = .error (.noRow 0o177777) ∧ decode 1 = .error (.noRow 1) := ⟨rfl, rfl, rfl, rfl⟩

theorem witness_OnlyTheZeroWordHalts :
    (∃ t, step (boot [0]) = .next t ∧ (boot [0]).wordAt (boot [0]).pc = some 0) ∧
    ∃ t, step (boot [1]) = .next t ∧ (boot [1]).wordAt (boot [1]).pc ≠ some 0 := by
  exact ⟨⟨_, rfl, rfl⟩, ⟨_, rfl, by decide⟩⟩

theorem witness_NoStepOutsideFetching :
    ((boot []).setRun .halted).run ≠ .fetching ∧
    ((boot []).setRun (.fatal ⟨.uninitRead 0, 0⟩)).run ≠ .fetching := by decide

theorem witness_OddPcStopsAtTheFetch :
    (((boot []).setX .r7 1).run = .fetching ∧ isOdd ((boot []).setX .r7 1).pc = true) ∧
    ((boot []).run = .fetching ∧ isOdd (boot []).pc = false ∧ (boot []).mem.get (wordIndex (boot []).pc) = none) := by
  decide

/-- The source stops; the destination of a reading instruction stops; the destination of MOV stops. -/
theorem witness_SourceStopsComeFirst :
    (∃ c t, resolve ⟨.indirect, .r3⟩ (demo [] 1) = .error c t) ∧
    (∃ p t c u, resolve ⟨.autoInc, .r3⟩ (demo [] 0o200) = .ok p t ∧ resolve ⟨.indirect, .r3⟩ t = .error c u) ∧
    ∃ p t c u, resolve ⟨.register, .r4⟩ (demo [] 1) = .ok p t ∧ resolveTarget ⟨.indirect, .r3⟩ t = .error c u :=
  ⟨⟨_, _, rfl⟩, ⟨_, _, _, _, rfl, rfl⟩, ⟨_, _, _, _, rfl, rfl⟩⟩

/-- A step that stops at an odd address, and one that uses a word without a value. -/
theorem witness_OnlyOddAddressAndUninitReadStop :
    (∃ f, step (two 0o010011 0o200 1) = .fault f) ∧ ∃ f, step State.reset = .fault f :=
  ⟨⟨_, rfl⟩, ⟨_, rfl⟩⟩

/-- A counted instruction with an index word and a memory destination, one with a register destination, a decode error,
and a step that stops. -/
theorem witness_CountingStatements :
    (∃ t i d, step (boot [0o012767, 5, 2]) = .next t ∧ (boot [0o012767, 5, 2]).current = some i ∧
      i.destination = some d ∧ d.mode ≠ .register) ∧
    (∃ t i d, step (two 0o060001 5 3) = .next t ∧ (two 0o060001 5 3).current = some i ∧
      i.destination = some d ∧ d.mode = .register) ∧
    (∃ t i, step (boot [0o000777]) = .next t ∧ (boot [0o000777]).current = some i ∧ i.destination = none ∧
      i.isBranch = true) ∧
    (∃ t, step (boot [1]) = .next t ∧ (boot [1]).current = none) ∧
    ∃ f, step (boot []) = .fault f :=
  ⟨⟨_, _, _, rfl, rfl, rfl, by decide⟩, ⟨_, _, _, rfl, rfl, rfl, by decide⟩, ⟨_, _, rfl, rfl, rfl, rfl⟩,
    ⟨_, rfl, rfl⟩, ⟨_, rfl⟩⟩

theorem witness_PcEndsPastTheInstructionsWords :
    ∃ t, step (boot [0o012767, 5, 2]) = .next t ∧
      (boot [0o012767, 5, 2]).current = some (.mov ⟨.autoInc, .r7⟩ ⟨.index, .r7⟩) ∧
      (Instr.mov ⟨.autoInc, .r7⟩ ⟨.index, .r7⟩).isBranch = false ∧
      (∀ o, o ∈ (Instr.mov ⟨.autoInc, .r7⟩ ⟨.index, .r7⟩).operands →
        ¬(o.reg = .r7 ∧ (o.mode = .autoDec ∨ o.mode = .autoDecIndirect))) ∧
      (∀ d, (Instr.mov ⟨.autoInc, .r7⟩ ⟨.index, .r7⟩).destination = some d → ¬(d.mode = .register ∧ d.reg = .r7)) :=
  ⟨_, rfl, rfl, rfl, by simp [Instr.operands], by simp [Instr.destination]⟩

/-- A step that writes a word. -/
theorem witness_StepWritesAtMostOneWord :
    ∃ t, step (cell 0o200 5 (two 0o060011 2 0o200)) = .next t ∧
      t.mem.get 0o100 ≠ (cell 0o200 5 (two 0o060011 2 0o200)).mem.get 0o100 := ⟨_, rfl, by decide⟩

theorem witness_EveryStepKeepsTheInvariant :
    ((boot [0o010011]).mem.wf = true ∧ (boot [0o010011]).run.betweenSteps = true ∧
      ∃ t, step (boot [0o010011]) = .next t) ∧
    (State.reset.mem.wf = true ∧ State.reset.run.betweenSteps = true ∧ ∃ f, step State.reset = .fault f) :=
  ⟨⟨rfl, rfl, ⟨_, rfl⟩⟩, ⟨rfl, rfl, ⟨_, rfl⟩⟩⟩

/-- A step that goes on, one that stops and one that is not enabled, from states that agree in Z. -/
theorem witness_OnlyZIsEverRead_CountersControlNothing :
    (⟨true, false, true, true⟩ : Flags).z = (boot [0o001003]).flags.z ∧
    (∃ t, step (boot [0o001003]) = .next t) ∧ (∃ e, step (boot []) = .fault e) ∧
    ∃ r, step ((boot []).setRun .halted) = .refused r := ⟨rfl, ⟨_, rfl⟩, ⟨_, rfl⟩, ⟨_, rfl⟩⟩

theorem witness_LaunchSetsEveryPieceOfState :
    ([0o012700, 5, 0] : List Word).length ≤ 32768 ∧ (∀ c, c ∈ [((32767 : Nat), (7 : Word))] → c.1 < 32768) ∧
    ([0o012700, 5, 0] : List Word)[2]? = some 0 ∧ ([0o012700, 5, 0] : List Word).length ≤ 32767 ∧
    ([((32767 : Nat), (7 : Word))].map Prod.fst).Nodup ∧ (32767, 7) ∈ [((32767 : Nat), (7 : Word))] ∧
    (∀ c, c ∈ [((32767 : Nat), (7 : Word))] → c.1 ≠ 3) ∧ 32768 < (List.replicate 32769 (0 : Word)).length := by
  exact ⟨by decide, by simp, rfl, by decide, by simp, by simp, by simp, by rw [List.length_replicate]; omega⟩

theorem witness_CompletedSteps :
    (∃ t i, step (two 0o060001 5 3) = .next t ∧ (two 0o060001 5 3).current = some i) ∧
    ∃ t, step (boot [0o005000]) = .next t ∧ (boot [0o005000]).current = none :=
  ⟨⟨_, _, rfl, rfl⟩, ⟨_, rfl, rfl⟩⟩

theorem witness_EventsCarryTheirCodes :
    ((boot [0]).run = .fetching ∧ (boot [0]).wordAt (boot [0]).pc = some 0) ∧
    ((boot [1]).wordAt (boot [1]).pc = some 1 ∧ decode 1 = .error (.noRow 1)) ∧
    (∃ f, step State.reset = .fault f ∧ f = .uninitRead f.left) ∧
    ∃ f, step (two 0o010011 0o200 1) = .fault f ∧ f = .oddAddress f.left :=
  ⟨⟨rfl, rfl⟩, ⟨rfl, rfl⟩, ⟨_, rfl, rfl⟩, ⟨_, rfl, rfl⟩⟩

theorem witness_PlacedWordIsFetchedNext :
    isOdd ((boot []).setX .r7 0o177776).pc = false ∧ (5 : Nat) ≠ wordIndex 0o177776 ∧ 5 ≠ wordIndex 0 ∧
    5 ≠ wordIndex 2 := by decide

end Sys2Proof.Tests
end

/-! ## The trace event of a completed step (10_state.md R35, R44) -/

namespace Sys2Proof.Machine

/-- A phrase of the trace as State.operandTrace lists it: the specifier, the address, the value. -/
def TracePhrase.entry (q : TracePhrase) : Operand × Option Word × Option Word :=
  (⟨q.target.mode, q.target.reg⟩, some q.target.addr, q.value)

/-! ### The instruction at the PC -/

theorem State.current_of_decode_ok {s : State} {w : Word} {i : Instr} (hw : s.wordAt s.pc = some w)
    (hd : decode w = .ok i) : s.current = some i := by
  simp only [State.current, hw, hd]

theorem State.current_of_decode_error {s : State} {w : Word} {e : DecodeError} (hw : s.wordAt s.pc = some w)
    (hd : decode w = .error e) : s.current = none := by
  simp only [State.current, hw, hd]

/-! ### One phrase -/

theorem traceTarget_of_ne {t : Target} (h : t.mode ≠ .register) (s : State) :
    traceTarget t s = ⟨t, s.mem.get (wordIndex t.addr)⟩ := by
  obtain ⟨m, r, a⟩ := t
  cases m with
  | register => exact absurd rfl h
  | _ => rfl

/-- A resolution that ends has the phrase of the mode table. -/
theorem resolve_ok_entry {o : Operand} {s t : State} {p : Phrase} (h : resolve o s = .ok p t) :
    t = s.afterOperand o ∧ (tracePhrase p).entry = (o, s.operandAddr o, s.operandValue o) := by
  obtain ⟨a, v, ha, hv, hok⟩ | ⟨c, u, -, herr, -⟩ := resolve_cases o s
  · obtain ⟨rfl, rfl⟩ : _ ∧ _ := by simpa [hok] using h
    exact ⟨rfl, by rw [ha, hv]; rfl⟩
  · simp [herr] at h

/-- Where put_result reaches a memory word, the mode table has its address, and its content as the value: none where it
holds none (10_state.md R39, 41_operand_resolver.md R122). -/
theorem State.operand_of_storeAddr {s : State} {o : Operand} {a : Word} (hm : o.mode ≠ .register)
    (ha : s.storeAddr o = some a) :
    s.operandAddr o = some a ∧ s.operandValue o = s.mem.get (wordIndex a) := by
  have heven : isOdd a = false := (State.even_of_storeAddr ha).resolve_left hm
  simp only [State.storeAddr, if_neg hm, Option.bind_eq_some_iff] at ha
  obtain ⟨b, hb, hba⟩ := ha
  obtain rfl : b = a := by
    split at hba
    · cases hba
    · exact Option.some.inj hba
  simp [State.operandValue, hm, hb, State.wordAt, heven]

/-- The phrase of put_result's resolution is that of the mode table too: resolving leaves the register of mode 0 and
all memory as they were, so reading them after it finds what the discarded read found. -/
theorem resolveTarget_ok_entry {o : Operand} {s u : State} {t : Target} (h : resolveTarget o s = .ok t u) :
    (traceTarget t u).entry = (o, s.operandAddr o, s.operandValue o) := by
  obtain ⟨a, ha, hok⟩ | ⟨c, v, -, herr, -⟩ := resolveTarget_cases o s
  · obtain ⟨rfl, rfl⟩ : _ ∧ _ := by simpa [hok] using h
    by_cases hm : o.mode = .register
    · obtain ⟨m, r⟩ := o
      subst hm
      cases ha
      rfl
    · obtain ⟨haddr, hvalue⟩ := State.operand_of_storeAddr hm ha
      rw [traceTarget_of_ne hm, haddr, hvalue]
      rfl
  · simp [herr] at h

/-! ### The phrases of an instruction -/

/-- The trace of an instruction's operands completes, with the phrases of the mode table. -/
def TracesOperands (phrases : Action (List TracePhrase)) (operands : List Operand) (s : State) : Prop :=
  ∃ ps u, phrases s = .ok ps u ∧ ps.map TracePhrase.entry = s.operandTrace operands

section Rules
variable {src dst : Operand} {s t : State}

/-- A rule that begins with the resolution of one operand ends only where its phrase is traced. -/
theorem tracesOperands_of_oneOperand {rest : Phrase → Action Unit} (h : (resolve dst >>= rest) s = .ok () t) :
    TracesOperands (do let p ← resolve dst; pure [tracePhrase p]) [dst] s := by
  obtain ⟨p, u, hp, -⟩ := bind_eq_ok.mp h
  obtain ⟨-, hentry⟩ := resolve_ok_entry hp
  exact ⟨[tracePhrase p], u, bind_ok hp, by simp [hentry]⟩

/-- A rule that begins with the resolution of a source and a destination ends only where both phrases are traced. -/
theorem tracesOperands_of_twoOperands {rest : Phrase → Phrase → Action Unit}
    (h : (resolve src >>= fun p => resolve dst >>= fun q => rest p q) s = .ok () t) :
    TracesOperands (twoPhrases src dst) [src, dst] s := by
  obtain ⟨p, u, hp, hrest⟩ := bind_eq_ok.mp h
  obtain ⟨q, v, hq, -⟩ := bind_eq_ok.mp hrest
  obtain ⟨rfl, hsrc⟩ := resolve_ok_entry hp
  obtain ⟨-, hdst⟩ := resolve_ok_entry hq
  exact ⟨[tracePhrase p, tracePhrase q], v, (bind_ok hp).trans (bind_ok hq), by simp [hsrc, hdst]⟩

/-- MOV ends only where its source phrase and its put_result phrase are traced. -/
theorem tracesOperands_of_mov (h : movRule src dst s = .ok () t) :
    TracesOperands (tracePhrases (.mov src dst)) [src, dst] s := by
  obtain ⟨p, u, hp, hrest⟩ := bind_eq_ok.mp h
  obtain ⟨_, _, hput, -⟩ := bind_eq_ok.mp hrest
  obtain ⟨q, v, hq, -⟩ := bind_eq_ok.mp hput
  obtain ⟨rfl, hsrc⟩ := resolve_ok_entry hp
  exact ⟨[tracePhrase p, traceTarget q v], v, (bind_ok hp).trans (bind_ok hq),
    by simp [hsrc, resolveTarget_ok_entry hq]⟩

end Rules

/-- An instruction that completes has resolved every operand it traces. -/
theorem tracesOperands_of_exec {i : Instr} {s t : State} (h : exec i s = .next t) :
    TracesOperands (tracePhrases i) i.operands s := by
  cases i with
  | mov src dst => exact tracesOperands_of_mov (runRule_eq_next.mp h)
  | cmp src dst => exact tracesOperands_of_twoOperands (runRule_eq_next.mp h)
  | add src dst => exact tracesOperands_of_twoOperands (runRule_eq_next.mp h)
  | sub src dst => exact tracesOperands_of_twoOperands (runRule_eq_next.mp h)
  | asr dst => exact tracesOperands_of_oneOperand (runRule_eq_next.mp h)
  | asl dst => exact tracesOperands_of_oneOperand (runRule_eq_next.mp h)
  | halt => exact ⟨[], s, rfl, rfl⟩
  | sob reg offset => exact ⟨[], s, rfl, rfl⟩
  | br offset => exact ⟨[], s, rfl, rfl⟩
  | bne offset => exact ⟨[], s, rfl, rfl⟩
  | beq offset => exact ⟨[], s, rfl, rfl⟩

/-! ### The event -/

theorem traceEvent_of_instruction {s t u : State} {w : Word} {i : Instr} {ps : List TracePhrase}
    (hs : step s = .next t) (hw : s.wordAt s.pc = some w) (hd : decode w = .ok i)
    (hp : tracePhrases i s.fetched = .ok ps u) :
    traceEvent s = some ⟨s.pc, w, mnemonic i, ps, t.cc⟩ := by
  simp only [traceEvent, hs, beginStep_ok hw, hd, hp]
  rfl

theorem traceEvent_of_decodeError {s t : State} {w : Word} {e : DecodeError} (hs : step s = .next t)
    (hw : s.wordAt s.pc = some w) (hd : decode w = .error e) :
    traceEvent s = some ⟨s.pc, w, "DECODE_ERROR", [], t.cc⟩ := by
  simp only [traceEvent, hs, beginStep_ok hw, hd]
  rfl

/-- Settles O58, along the three ways a step from FETCHING can go: an instruction that completes has resolved the
operands it traces, a decode error traces none, and a stop at the fetch completes nothing. -/
theorem everyCompletedStepHasItsTraceEvent : Obligations.EveryCompletedStepHasItsTraceEvent := by
  unfold Obligations.EveryCompletedStepHasItsTraceEvent
  intro s t hs
  have hrun : s.run = .fetching := by
    by_contra hne
    simp [step_not_fetching hne] at hs
  obtain ⟨c, -, -, hstop⟩ | ⟨w, i, hw, hd, hexec⟩ | ⟨w, e, hw, hd, -⟩ := step_cases hrun
  · simp [hstop, raiseFatal] at hs
  · obtain ⟨u, hu, -⟩ := endInstruction_eq_next.mp (hexec.symm.trans hs)
    obtain ⟨ps, v, hps, hentries⟩ := tracesOperands_of_exec hu
    have hcur := State.current_of_decode_ok hw hd
    refine ⟨_, traceEvent_of_instruction hs hw hd hps, rfl, hw, rfl, ?_, by simp [hcur]⟩
    intro j hj
    obtain rfl : i = j := Option.some.inj (hcur.symm.trans hj)
    exact ⟨rfl, hentries⟩
  · have hcur := State.current_of_decode_error hw hd
    exact ⟨_, traceEvent_of_decodeError hs hw hd, rfl, hw, rfl, by simp [hcur], fun _ => ⟨rfl, rfl⟩⟩

end Sys2Proof.Machine

/-! ## What an instruction and a step do to memory and the run state (20_memory.md R50, R59, 10_state.md R25) -/

namespace Sys2Proof.Machine

/-- Memory and its write counter across an instruction or a step: both as before, or one word written and counted. -/
inductive StoreFrame (s t : State) : Prop where
  | keeps (hmem : t.mem = s.mem) (hcnt : t.cnt.dwrite = s.cnt.dwrite)
  | writes (a v : Word) (hmem : t.mem = s.mem.put (wordIndex a) v) (hcnt : t.cnt.dwrite = s.cnt.dwrite + 1)

/-- An instruction moves the run state to HALTED or not at all. -/
structure ExecFrame (s t : State) : Prop where
  store : StoreFrame s t
  run : t.run = s.run ∨ t.run = .halted

/-- Everything a rule can do, as far as memory and the run state go: it ends, or it stops at a read and has changed
nothing but registers and read counters. -/
inductive RuleOutcome (rule : Action Unit) (s : State) : Prop where
  | ends {t : State} (hok : rule s = .ok () t) (hframe : ExecFrame s t)
  | stops {c : FatalCause} {t : State} (herr : rule s = .error c t) (hc : ReadFault s c) (hframe : ReadFrame s t)

/-! ### The frames -/

theorem StoreFrame.of_eq {s s' t t' : State} (h : StoreFrame s t) (hs : s.mem = s'.mem)
    (hsc : s.cnt.dwrite = s'.cnt.dwrite) (ht : t'.mem = t.mem) (htc : t'.cnt.dwrite = t.cnt.dwrite) :
    StoreFrame s' t' := by
  cases h with
  | keeps hmem hcnt => exact .keeps (by rw [ht, hmem, hs]) (by rw [htc, hcnt, hsc])
  | writes a v hmem hcnt => exact .writes a v (by rw [ht, hmem, hs]) (by rw [htc, hcnt, hsc])

theorem StoreFrame.wf {s t : State} (h : StoreFrame s t) (hs : s.mem.wf = true) : t.mem.wf = true := by
  cases h with
  | keeps hmem _ => rwa [hmem]
  | writes a v hmem _ =>
    rw [hmem]
    exact Memory.wf_put v (wordIndex_lt a) hs

/-- The words that differ across a store are one word. -/
theorem StoreFrame.eq_of_get_ne {s t : State} (h : StoreFrame s t) {j k : Nat} (hj : t.mem.get j ≠ s.mem.get j)
    (hk : t.mem.get k ≠ s.mem.get k) : j = k := by
  cases h with
  | keeps hmem _ => exact absurd (by rw [hmem]) hj
  | writes a v hmem _ =>
    have hword : ∀ i, t.mem.get i ≠ s.mem.get i → i = wordIndex a := by
      intro i hi
      by_contra hne
      exact hi (by rw [hmem, Memory.get_put_ne _ _ hne])
    rw [hword j hj, hword k hk]

theorem StoreFrame.dwrite_of_mem_ne {s t : State} (h : StoreFrame s t) (hne : t.mem ≠ s.mem) :
    t.cnt.dwrite = s.cnt.dwrite + 1 := by
  cases h with
  | keeps hmem _ => exact absurd hmem hne
  | writes _ _ _ hcnt => exact hcnt

/-- A commit stores at most the word it is told to. -/
theorem execFrame_afterStore (s : State) (o : Operand) (a v : Word) : ExecFrame s (s.afterStore o a v) := by
  unfold State.afterStore
  split
  · exact ⟨.keeps rfl rfl, .inl rfl⟩
  · exact ⟨.writes a v rfl rfl, .inl rfl⟩

theorem ReadFrame.execFrame_trans {s t u : State} (h : ReadFrame s t) (g : ExecFrame t u) : ExecFrame s u :=
  ⟨g.store.of_eq h.mem h.dwrite rfl rfl, h.run ▸ g.run⟩

theorem ExecFrame.setFlags {s t : State} (h : ExecFrame s t) (f : Flags) : ExecFrame s (t.setFlags f) :=
  ⟨h.store.of_eq rfl rfl rfl rfl, h.run⟩

/-! ### The rules -/

section Rules
variable {s : State}

/-- The resolution of an operand before the rest of a rule. The rest gets the phrase of the operand, at an even address
where it names memory. -/
theorem RuleOutcome.resolve_bind {o : Operand} {rest : Phrase → Action Unit}
    (h : ∀ a v, o.mode = .register ∨ isOdd a = false →
      RuleOutcome (rest ⟨⟨o.mode, o.reg, a⟩, v⟩) (s.afterOperand o)) :
    RuleOutcome (resolve o >>= rest) s := by
  obtain ⟨a, v, ha, hv, hok⟩ | ⟨c, t, -, herr, hc, hframe⟩ := resolve_cases o s
  · have hread := readFrame_afterOperand s o
    cases h a v (State.even_of_operandValue ha hv) with
    | ends hrest hframe => exact .ends ((bind_ok hok).trans hrest) (hread.execFrame_trans hframe)
    | stops hrest hc hframe => exact .stops ((bind_ok hok).trans hrest) (hc.of_mem hread.mem) (hread.trans hframe)
  · exact .stops (bind_error herr) hc hframe

/-- The end of ADD, SUB, ASR and ASL: the flags, then the commit, which no longer stops. -/
theorem ruleOutcome_flags_updateOperand {o : Operand} {a : Word} (v : Word) (r : AluResult)
    (heven : o.mode = .register ∨ isOdd a = false) :
    RuleOutcome (do
      update (fun t => t.setFlags r.flags)
      updateOperand ⟨⟨o.mode, o.reg, a⟩, v⟩ r.r) s := by
  have hframe := execFrame_afterStore (s.setFlags r.flags) o a r.r
  exact .ends ((bind_ok (update_apply _ _)).trans (commit_ok heven _ _))
    ⟨hframe.store.of_eq rfl rfl rfl rfl, hframe.run⟩

theorem ruleOutcome_movRule (src dst : Operand) : RuleOutcome (movRule src dst) s := by
  refine .resolve_bind fun _ v _ => ?_
  obtain ⟨a, -, hok⟩ | ⟨c, t, -, herr, hc, hframe⟩ := putResult_cases dst v (s.afterOperand src)
  · have hframe := (readFrame_afterOperand _ dst).execFrame_trans
      (execFrame_afterStore ((s.afterOperand src).afterOperand dst) dst a v)
    exact .ends (bind_ok hok) (hframe.setFlags _)
  · exact .stops (bind_error herr) hc hframe

theorem ruleOutcome_cmpRule (src dst : Operand) : RuleOutcome (cmpRule src dst) s :=
  .resolve_bind fun _ _ _ => .resolve_bind fun _ _ _ =>
    .ends (update_apply _ _) ⟨.keeps rfl rfl, .inl rfl⟩

theorem ruleOutcome_addRule (src dst : Operand) : RuleOutcome (addRule src dst) s :=
  .resolve_bind fun _ _ _ => .resolve_bind fun _ v heven => ruleOutcome_flags_updateOperand v _ heven

theorem ruleOutcome_subRule (src dst : Operand) : RuleOutcome (subRule src dst) s :=
  .resolve_bind fun _ _ _ => .resolve_bind fun _ v heven => ruleOutcome_flags_updateOperand v _ heven

theorem ruleOutcome_asrRule (dst : Operand) : RuleOutcome (asrRule dst) s :=
  .resolve_bind fun _ v heven => ruleOutcome_flags_updateOperand v _ heven

theorem ruleOutcome_aslRule (dst : Operand) : RuleOutcome (aslRule dst) s :=
  .resolve_bind fun _ v heven => ruleOutcome_flags_updateOperand v _ heven

/-- SOB, BNE and BEQ count the branch and then take it or not: memory and the run state stay. -/
theorem ruleOutcome_branchOrSkip {rule : Action Unit} {p : Prop} [Decidable p] {offset : Int} {u : State}
    (hrule : rule s = (if p then branchTo offset else pure ()) u) (hmem : u.mem = s.mem)
    (hcnt : u.cnt.dwrite = s.cnt.dwrite) (hrun : u.run = s.run) : RuleOutcome rule s := by
  by_cases hp : p
  · rw [if_pos hp] at hrule
    exact .ends (hrule.trans (branchTo_apply _ _)) ⟨.keeps hmem hcnt, .inl hrun⟩
  · rw [if_neg hp] at hrule
    exact .ends (hrule.trans (pure_apply _ _)) ⟨.keeps hmem hcnt, .inl hrun⟩

theorem ruleOutcome_sobRule (reg : Reg) (n : Nat) : RuleOutcome (sobRule reg n) s :=
  let u := (s.setX reg (mask16 (((s.x reg).toNat : Int) - 1))).countBr
  ruleOutcome_branchOrSkip (p := u.x reg ≠ 0) (u := u) rfl rfl rfl rfl

theorem ruleOutcome_bneRule (offset : Int) : RuleOutcome (bneRule offset) s :=
  ruleOutcome_branchOrSkip (p := s.flags.z = false) (u := s.countBr) rfl rfl rfl rfl

theorem ruleOutcome_beqRule (offset : Int) : RuleOutcome (beqRule offset) s :=
  ruleOutcome_branchOrSkip (p := s.flags.z = true) (u := s.countBr) rfl rfl rfl rfl

theorem ruleOutcome_brRule (offset : Int) : RuleOutcome (brRule offset) s :=
  .ends (branchTo_apply offset s.countBr) ⟨.keeps rfl rfl, .inl rfl⟩

theorem ruleOutcome_halt : RuleOutcome (update (fun t => t.setRun .halted)) s :=
  .ends (update_apply _ _) ⟨.keeps rfl rfl, .inr rfl⟩

end Rules

/-! ### The instruction and the step -/

/-- Every instruction runs a rule, and every rule ends or stops as RuleOutcome says. -/
theorem exec_ruleOutcome (i : Instr) (s : State) :
    ∃ rule : Action Unit, exec i s = runRule rule s ∧ RuleOutcome rule s := by
  cases i with
  | halt => exact ⟨_, exec_halt s, ruleOutcome_halt⟩
  | mov src dst => exact ⟨_, exec_mov src dst s, ruleOutcome_movRule src dst⟩
  | cmp src dst => exact ⟨_, exec_cmp src dst s, ruleOutcome_cmpRule src dst⟩
  | add src dst => exact ⟨_, exec_add src dst s, ruleOutcome_addRule src dst⟩
  | sub src dst => exact ⟨_, exec_sub src dst s, ruleOutcome_subRule src dst⟩
  | sob reg n => exact ⟨_, exec_sob reg n s, ruleOutcome_sobRule reg n⟩
  | br offset => exact ⟨_, exec_br offset s, ruleOutcome_brRule offset⟩
  | bne offset => exact ⟨_, exec_bne offset s, ruleOutcome_bneRule offset⟩
  | beq offset => exact ⟨_, exec_beq offset s, ruleOutcome_beqRule offset⟩
  | asr dst => exact ⟨_, exec_asr dst s, ruleOutcome_asrRule dst⟩
  | asl dst => exact ⟨_, exec_asl dst s, ruleOutcome_aslRule dst⟩

theorem execFrame_of_exec_next {i : Instr} {s t : State} (h : exec i s = .next t) : ExecFrame s t := by
  obtain ⟨rule, hexec, hrule⟩ := exec_ruleOutcome i s
  have hok : rule s = .ok () t := runRule_eq_next.mp (hexec.symm.trans h)
  cases hrule with
  | ends hok' hframe =>
    cases hok.symm.trans hok'
    exact hframe
  | stops herr _ _ => cases hok.symm.trans herr

theorem readFrame_of_exec_fault {i : Instr} {s : State} {f : Fault} (h : exec i s = .fault f) :
    ∃ c t, f = c.fault (t.setRun (.fatal ⟨c, t.ia⟩)) ∧ ReadFault s c ∧ ReadFrame s t := by
  obtain ⟨rule, hexec, hrule⟩ := exec_ruleOutcome i s
  obtain ⟨c, t, herr, hf⟩ := runRule_eq_fault.mp (hexec.symm.trans h)
  cases hrule with
  | ends hok _ => cases herr.symm.trans hok
  | stops herr' hc hframe =>
    cases herr.symm.trans herr'
    exact ⟨c, t, hf, hc, hframe⟩

theorem run_of_step_ne_refused {s : State} (h : ∀ r, step s ≠ .refused r) : s.run = .fetching := by
  by_contra hne
  exact h _ (step_not_fetching hne)

@[simp] theorem mem_resumeFetching (s : State) : (resumeFetching s).mem = s.mem := by
  obtain h | ⟨-, h⟩ := resumeFetching_eq s <;> simp [h]

@[simp] theorem cnt_resumeFetching (s : State) : (resumeFetching s).cnt = s.cnt := by
  obtain h | ⟨-, h⟩ := resumeFetching_eq s <;> simp [h]

theorem run_resumeFetching_of_executing {s : State} (h : s.run = .executing) :
    (resumeFetching s).run = .fetching := by
  simp only [resumeFetching, h, State.run_setRun]

theorem run_resumeFetching_of_halted {s : State} (h : s.run = .halted) : (resumeFetching s).run = .halted := by
  simp only [resumeFetching, h]

/-- A step that completes writes one counted word or none, and ends in FETCHING or HALTED. -/
theorem step_next_frame {s t : State} (h : step s = .next t) :
    StoreFrame s t ∧ (t.run = .fetching ∨ t.run = .halted) := by
  have hfetching : s.run = .fetching := run_of_step_ne_refused (by simp [h])
  obtain ⟨c, -, -, hstop⟩ | ⟨w, i, -, -, hexec⟩ | ⟨w, e, -, -, hskip⟩ := step_cases hfetching
  · cases hstop.symm.trans h
  · obtain ⟨u, hu, rfl⟩ := endInstruction_eq_next.mp (hexec.symm.trans h)
    obtain ⟨hstore, hrun⟩ := execFrame_of_exec_next hu
    refine ⟨hstore.of_eq rfl rfl (by simp) (by simp), ?_⟩
    obtain hrun | hrun := hrun
    · exact .inl (run_resumeFetching_of_executing hrun)
    · exact .inr (run_resumeFetching_of_halted hrun)
  · cases hskip.symm.trans h
    exact ⟨.keeps rfl rfl, .inl rfl⟩

/-- A step that stops does so at a read, recorded with the address of the instruction word; it has changed nothing but
`ia`, or the fetch and then registers and read counters. -/
theorem step_fault_frame {s : State} {f : Fault} (h : step s = .fault f) :
    ∃ c t, f = c.fault (t.setRun (.fatal ⟨c, s.pc⟩)) ∧ ReadFault s c ∧
      (t = s.setIa s.pc ∨ ReadFrame s.fetched t) := by
  have hfetching : s.run = .fetching := run_of_step_ne_refused (by simp [h])
  obtain ⟨c, -, hc, hstop⟩ | ⟨w, i, -, -, hexec⟩ | ⟨w, e, -, -, hskip⟩ := step_cases hfetching
  · cases hstop.symm.trans h
    exact ⟨c, _, rfl, hc.readFault, .inl rfl⟩
  · obtain ⟨c, t, rfl, hc, hframe⟩ := readFrame_of_exec_fault (endInstruction_eq_fault.mp (hexec.symm.trans h))
    have hia : t.ia = s.pc := hframe.ia
    exact ⟨c, t, by rw [hia], hc.of_mem rfl, .inr hframe⟩
  · cases hskip.symm.trans h

@[simp] theorem FatalCause.left_fault (c : FatalCause) (s : State) : (c.fault s).left = s := by
  cases c <;> rfl

/-- Settles O48: a completed step puts words inside the memory alone and ends in FETCHING or HALTED, and a stopped one
has not written and is in FATAL. -/
theorem everyStepKeepsTheInvariant : Obligations.EveryStepKeepsTheInvariant := by
  unfold Obligations.EveryStepKeepsTheInvariant
  intro s ⟨hwf, _⟩
  constructor
  · intro t h
    obtain ⟨hstore, hrun⟩ := step_next_frame h
    have hbetween : t.run.betweenSteps = true := by
      obtain hrun | hrun := hrun <;> rw [hrun] <;> rfl
    exact ⟨⟨hstore.wf hwf, hbetween⟩, hrun⟩
  · intro f h
    obtain ⟨c, t, rfl, -, hframe⟩ := step_fault_frame h
    have hmem : t.mem = s.mem := by
      obtain rfl | hframe := hframe
      · rfl
      · exact hframe.mem
    rw [FatalCause.left_fault]
    exact ⟨⟨by rwa [State.mem_setRun, hmem], rfl⟩, _, rfl⟩

/-- Settles O47: a completed step keeps memory, or puts one word and counts it. -/
theorem stepWritesAtMostOneWord : Obligations.StepWritesAtMostOneWord := by
  unfold Obligations.StepWritesAtMostOneWord
  intro s t h
  obtain ⟨hstore, -⟩ := step_next_frame h
  exact ⟨fun _ _ => hstore.eq_of_get_ne, hstore.dwrite_of_mem_ne⟩

/-- Settles O49: memory is empty and the run state is FETCHING. -/
theorem resetMeetsTheInvariant : Obligations.ResetMeetsTheInvariant := by
  unfold Obligations.ResetMeetsTheInvariant
  exact ⟨State.wf_reset, rfl⟩

/-! ## The memory port (20_memory.md R52 to R55) -/

/-- Settles O6: of the two checks of an access only the one for an odd address can fail. -/
theorem memReadChecksTheAddressAndReturnsTheWord : Obligations.MemReadChecksTheAddressAndReturnsTheWord := by
  unfold Obligations.MemReadChecksTheAddressAndReturnsTheWord
  intro kind a s
  refine ⟨fun hodd => ?_, fun heven => ?_⟩
  · rw [memRead_apply, if_pos hodd]
  · rw [memRead_apply, heven]
    rfl

/-- Settles O7, by the read-after-write laws of the word memory: even addresses that differ name words that differ. -/
theorem memWriteRoundTripsAndWritesOneWord : Obligations.MemWriteRoundTripsAndWritesOneWord := by
  unfold Obligations.MemWriteRoundTripsAndWritesOneWord
  intro kind a v s
  refine ⟨fun hodd => ?_, fun heven => ?_⟩
  · rw [memWrite_apply, if_pos hodd]
  · refine ⟨s.setMem (s.mem.put (wordIndex a) v), ?_, ?_, fun b hb hne => ?_, rfl⟩
    · simp [memWrite_apply, heven]
    · simp [memRead_apply, heven]
    · exact Memory.get_put_ne _ _ fun hword => hne (wordIndex_inj hb heven hword)

/-! ## Stops at the fetch (20_memory.md R54, 10_state.md R39) -/

theorem ReadStop.unique {s : State} {kind : AccessKind} {a : Word} {c d : FatalCause} (hc : ReadStop s kind a c)
    (hd : ReadStop s kind a d) : c = d := by
  cases hc with
  | odd ho =>
    cases hd with
    | odd _ => rfl
    | noValue he _ => cases ho.symm.trans he
  | noValue he _ =>
    cases hd with
    | odd ho => cases ho.symm.trans he
    | noValue _ _ => rfl

theorem step_of_readStop {s : State} {c : FatalCause} (hr : s.run = .fetching)
    (hc : ReadStop s .instructionFetch s.pc c) : step s = raiseFatal c (s.setIa s.pc) := by
  obtain ⟨d, -, hd, hstop⟩ | ⟨w, i, hw, -, -⟩ | ⟨w, e, hw, -, -⟩ := step_cases hr
  · rw [hstop, hd.unique hc]
  · cases hc.wordAt.symm.trans hw
  · cases hc.wordAt.symm.trans hw

/-- Settles O38: an odd PC, or an even one whose word holds no value, is what stops a fetch. -/
theorem oddPcStopsAtTheFetch : Obligations.OddPcStopsAtTheFetch := by
  unfold Obligations.OddPcStopsAtTheFetch
  intro s hr
  exact ⟨fun hodd => step_of_readStop hr (.odd hodd), fun heven hnone => step_of_readStop hr (.noValue heven hnone)⟩

/-! ## Stops of the operand resolver at an odd address (20_memory.md R54, 60_exceptions.md R213, R214) -/

/-- An autodecrement keeps an odd register odd (41_operand_resolver.md R116, R117). -/
theorem isOdd_sub_two (a : Word) : isOdd (a - 2) = isOdd a := by
  have hsub : (a - 2).toNat % 2 = a.toNat % 2 := by bv_omega
  simp only [isOdd_eq, hsub]

theorem dataRead_of_odd {kind : AccessKind} {a : Word} (h : isOdd a = true) (s : State) :
    dataRead kind a s = .error (.oddAddress a kind) s := by
  simp [dataRead, bind_apply, memRead_apply, h]

theorem fetchWord_of_odd {kind : AccessKind} {s : State} (h : isOdd s.pc = true) :
    fetchWord kind s = .error (.oddAddress s.pc kind) s := by
  obtain ⟨w, heven, -, -⟩ | ⟨c, hc, herr⟩ := fetchWord_cases kind s
  · cases heven.symm.trans h
  · rw [herr, hc.unique (.odd h)]

theorem fetchWord_of_wordAt {kind : AccessKind} {s : State} {w : Word} (h : s.wordAt s.pc = some w) :
    fetchWord kind s = .ok w (s.setX .r7 (s.pc + 2)).countIfetch := by
  obtain ⟨v, hv, hok⟩ | ⟨c, hnone, -⟩ := fetchWord_wordAt kind s
  · cases hv.symm.trans h
    exact hok
  · cases hnone.symm.trans h

section Resolver
variable {o : Operand} {r : Reg} {s t : State} {a X v : Word} {c : FatalCause}

theorem resolveAddr_of_operandAddr (h : s.operandAddr o = some a) : resolveAddr o s = .ok a (s.afterAddr o) := by
  obtain ⟨b, hb, hok⟩ | ⟨c, t, hnone, -⟩ := resolveAddr_cases o s
  · cases hb.symm.trans h
    exact hok
  · cases hnone.symm.trans h

theorem resolve_of_addr_error (h : resolveAddr o s = .error c t) : resolve o s = .error c t := bind_error h

/-- The value read at an odd address stops as a data read, in every mode that reads memory. -/
theorem resolve_of_odd_operandAddr (hm : o.mode ≠ .register) (h : s.operandAddr o = some a) (hodd : isOdd a = true) :
    resolve o s = .error (.oddAddress a .dataRead) (s.afterAddr o) := by
  rw [resolve, bind_ok (resolveAddr_of_operandAddr h), readValue_of_ne hm, bind_error (dataRead_of_odd hodd _)]

theorem resolve_autoIncIndirect_of_odd (h : isOdd (s.x r) = true) :
    resolve ⟨.autoIncIndirect, r⟩ s = .error (.oddAddress (s.x r) .pointerRead) s :=
  resolve_of_addr_error ((bind_ok (readX_apply r s)).trans (dataRead_of_odd h s))

theorem resolve_autoDecIndirect_of_odd (h : isOdd (s.x r - 2) = true) :
    resolve ⟨.autoDecIndirect, r⟩ s =
      .error (.oddAddress (s.x r - 2) .pointerRead) (s.setX r (s.x r - 2)) := by
  apply resolve_of_addr_error
  rw [resolveAddr_autoDecIndirect, bind_ok (update_apply _ s), bind_ok (readX_apply r _), State.x_setX_self]
  exact dataRead_of_odd h _

theorem resolve_of_odd_pc {m : Mode} (hm : m = .index ∨ m = .indexDeferred) (h : isOdd s.pc = true) :
    resolve ⟨m, r⟩ s = .error (.oddAddress s.pc .indexFetch) s := by
  obtain rfl | rfl := hm <;> exact resolve_of_addr_error (bind_error (fetchWord_of_odd h))

theorem resolve_indexDeferred_of_odd_pointer (hX : s.wordAt s.pc = some X) (h : isOdd (s.indexBase r + X) = true) :
    resolve ⟨.indexDeferred, r⟩ s =
      .error (.oddAddress (s.indexBase r + X) .pointerRead) (s.setX .r7 (s.pc + 2)).countIfetch := by
  apply resolve_of_addr_error
  rw [resolveAddr_indexDeferred, bind_ok (fetchWord_of_wordAt hX), bind_ok (readX_apply r _), State.x_after_index]
  exact dataRead_of_odd h _

theorem operandAddr_index (hX : s.wordAt s.pc = some X) :
    s.operandAddr ⟨.index, r⟩ = some (s.indexBase r + X) := by
  simp only [State.operandAddr, hX, Option.map_some]

theorem operandAddr_indexDeferred (hX : s.wordAt s.pc = some X) (ha : s.wordAt (s.indexBase r + X) = some a) :
    s.operandAddr ⟨.indexDeferred, r⟩ = some a := by
  simp only [State.operandAddr, hX, Option.bind_some, ha]

/-- `Resolve` at an even address goes on to its end, or finds no value there: it does not stop at an odd address. -/
theorem resolve_ne_oddAddress_of_even {b : Word} {kind : AccessKind} (h : s.operandAddr o = some a)
    (heven : o.mode = .register ∨ isOdd a = false) : resolve o s ≠ .error (.oddAddress b kind) t := by
  intro herr
  by_cases hm : o.mode = .register
  · obtain ⟨m, r⟩ := o
    subst hm
    cases herr
  · rw [resolve, bind_ok (resolveAddr_of_operandAddr h), readValue_of_ne hm] at herr
    obtain ⟨v, -, -, hok⟩ | ⟨c, hc, herr'⟩ := dataRead_cases .dataRead a (s.afterAddr o)
    · rw [bind_ok hok, bind_ok (postIncrement_afterAddr o s hm)] at herr
      cases herr
    · rw [bind_error herr'] at herr
      cases herr
      cases hc with
      | odd hodd => cases (heven.resolve_left hm).symm.trans hodd

/-- put_result stops where its resolution finds no address, exactly as `Resolve` does. -/
theorem putResult_of_addr_error (h : resolveAddr o s = .error c t) : putResult o v s = .error c t :=
  bind_error (bind_error h)

theorem putResult_of_odd_operandAddr (hm : o.mode ≠ .register) (h : s.operandAddr o = some a)
    (hodd : isOdd a = true) :
    putResult o v s = .error (.oddAddress a .dataRead) (s.afterAddr o) := by
  obtain ⟨heven, -⟩ | ⟨-, herr⟩ := dataReadDiscarded_cases a (s.afterAddr o)
  · cases heven.symm.trans hodd
  · apply bind_error
    rw [resolveTarget, bind_ok (resolveAddr_of_operandAddr h), discardValue_of_ne hm, bind_error herr]

theorem putResult_ne_error_of_even (h : s.operandAddr o = some a) (heven : o.mode = .register ∨ isOdd a = false) :
    putResult o v s ≠ .error c t := by
  have hstore : s.storeAddr o ≠ none := by
    by_cases hm : o.mode = .register
    · simp [State.storeAddr, hm]
    · simp [State.storeAddr, hm, h, heven.resolve_left hm]
  obtain ⟨b, -, hok⟩ | ⟨d, u, hnone, -⟩ := putResult_cases o v s
  · simp [hok]
  · exact absurd hnone hstore

/-- put_result and `Resolve` find the address alike and check it alike; what they do with an even one stops neither at
an odd address (41_operand_resolver.md R122). -/
theorem putResult_oddAddress_iff (o : Operand) (v b : Word) (kind : AccessKind) (s t : State) :
    putResult o v s = .error (.oddAddress b kind) t ↔ resolve o s = .error (.oddAddress b kind) t := by
  obtain ⟨a, ha, -⟩ | ⟨c, u, -, herr, -⟩ := resolveAddr_cases o s
  · by_cases heven : o.mode = .register ∨ isOdd a = false
    · exact iff_of_false (putResult_ne_error_of_even ha heven) (resolve_ne_oddAddress_of_even ha heven)
    · simp only [not_or, Bool.not_eq_false] at heven
      obtain ⟨hm, hodd⟩ := heven
      simp only [putResult_of_odd_operandAddr hm ha hodd, resolve_of_odd_operandAddr hm ha hodd,
        EStateM.Result.error.injEq]
  · simp only [putResult_of_addr_error herr, resolve_of_addr_error herr, EStateM.Result.error.injEq]

end Resolver

theorem dataWrite_of_odd {a : Word} (h : isOdd a = true) (v : Word) (s : State) :
    dataWrite a v s = .error (.oddAddress a .dataWrite) s := by
  obtain ⟨heven, -⟩ | ⟨-, herr⟩ := dataWrite_cases a v s
  · cases heven.symm.trans h
  · exact herr

/-- Settles O12: a value read stops at the odd address the mode table gives, a pointer read or an index fetch on the way
to that address stops the search for it, and put_result stops with `Resolve`. -/
theorem oddAddressStopsNameTheAccess : Obligations.OddAddressStopsNameTheAccess := by
  unfold Obligations.OddAddressStopsNameTheAccess
  intro r s a X v
  refine ⟨fun hodd => ?oddRegister, fun hptr hodd => ?oddPointer, fun hptr hodd => ?oddPointerDec,
    fun hodd => ?oddPc, fun hX hodd => ?oddIndexed, fun hX hptr hodd => ?oddIndexedPointer,
    fun o kind t => ?putResult⟩
  case oddRegister =>
    have hdec : isOdd (s.x r - 2) = true := (isOdd_sub_two _).trans hodd
    exact ⟨resolve_of_odd_operandAddr nofun rfl hodd, resolve_of_odd_operandAddr nofun rfl hodd,
      resolve_autoIncIndirect_of_odd hodd, resolve_of_odd_operandAddr nofun rfl hdec,
      resolve_autoDecIndirect_of_odd hdec, dataWrite_of_odd hodd v s⟩
  case oddPointer => exact resolve_of_odd_operandAddr nofun hptr hodd
  case oddPointerDec => exact resolve_of_odd_operandAddr nofun hptr hodd
  case oddPc => exact ⟨resolve_of_odd_pc (.inl rfl) hodd, resolve_of_odd_pc (.inr rfl) hodd⟩
  case oddIndexed =>
    exact ⟨resolve_of_odd_operandAddr nofun (operandAddr_index hX) hodd,
      resolve_indexDeferred_of_odd_pointer hX hodd⟩
  case oddIndexedPointer => exact resolve_of_odd_operandAddr nofun (operandAddr_indexDeferred hX hptr) hodd
  case putResult => exact putResult_oddAddress_iff o v a kind s t

end Sys2Proof.Machine

/-! ## Decoding by the rows of the decode table (30_encoding.md R74) -/

namespace Sys2Proof

/-- The word matches the instruction's row: `(w & mask) == match`. -/
def Instr.matchesRow (w : Word) (i : Instr) : Bool := decide (w &&& Laws.TableRow.mask i = Laws.TableRow.pattern i)

/-- What a word would mean in each row, in the order of the table: the row's instruction with the word's fields. -/
def readings (w : Word) : List Instr :=
  [.halt, .mov (srcOperand w) (dstOperand w), .cmp (srcOperand w) (dstOperand w),
    .add (srcOperand w) (dstOperand w), .sub (srcOperand w) (dstOperand w),
    .sob (Reg.ofBits (w.extractLsb' 6 3)) (sobOffset w), .br (branchOffset w), .bne (branchOffset w),
    .beq (branchOffset w), .asr (dstOperand w), .asl (dstOperand w)]

theorem matchesRow_iff {w : Word} {i : Instr} :
    i.matchesRow w = true ↔ w &&& Laws.TableRow.mask i = Laws.TableRow.pattern i := decide_eq_true_iff

theorem matchesRow_encode (i : Instr) : i.matchesRow (encode i) = true := by
  rw [matchesRow_iff]
  cases i with
  | halt => exact Laws.TableRow.halt
  | mov src dst => exact Laws.TableRow.mov src dst
  | cmp src dst => exact Laws.TableRow.cmp src dst
  | add src dst => exact Laws.TableRow.add src dst
  | sub src dst => exact Laws.TableRow.sub src dst
  | sob reg offset => exact Laws.TableRow.sob reg offset
  | br offset => exact Laws.TableRow.br offset
  | bne offset => exact Laws.TableRow.bne offset
  | beq offset => exact Laws.TableRow.beq offset
  | asr dst => exact Laws.TableRow.asr dst
  | asl dst => exact Laws.TableRow.asl dst

/-! ### The decoder's predicates are the masks -/

/-- An opcode field of the top bits has a value exactly when masking the word to it leaves that value in place. -/
theorem extract_eq_iff_and_eq {w m p : Word} {k n : Nat} {b : BitVec n}
    (hmask : (w &&& m).toNat = w.toNat / 2 ^ k * 2 ^ k) (hkn : k + n = 16) (hp : p.toNat = b.toNat * 2 ^ k) :
    w.extractLsb' k n = b ↔ w &&& m = p := by
  have hlt : w.toNat / 2 ^ k < 2 ^ n := by
    rw [Nat.div_lt_iff_lt_mul (Nat.two_pow_pos k), ← Nat.pow_add, Nat.add_comm, hkn]
    exact w.isLt
  rw [← BitVec.toNat_inj, ← BitVec.toNat_inj, BitVec.extractLsb'_toNat, Nat.shiftRight_eq_div_pow,
    Nat.mod_eq_of_lt hlt, hmask, hp, Nat.mul_left_inj (Nat.two_pow_pos k).ne']

theorem and_mask16 (w : Word) : w &&& 0o177777 = w := BitVec.and_allOnes

section Predicates
variable {w p : Word}

theorem opcode4_eq_iff {b : BitVec 4} (hp : p.toNat = b.toNat * 4096) :
    w.extractLsb' 12 4 = b ↔ w &&& 0o170000 = p := extract_eq_iff_and_eq (and_mask12 w) rfl hp

theorem opcode7_eq_iff {b : BitVec 7} (hp : p.toNat = b.toNat * 512) :
    w.extractLsb' 9 7 = b ↔ w &&& 0o177000 = p := extract_eq_iff_and_eq (and_mask9 w) rfl hp

theorem opcode8_eq_iff {b : BitVec 8} (hp : p.toNat = b.toNat * 256) :
    w.extractLsb' 8 8 = b ↔ w &&& 0o177400 = p := extract_eq_iff_and_eq (and_mask8 w) rfl hp

theorem opcode10_eq_iff {b : BitVec 10} (hp : p.toNat = b.toNat * 64) :
    w.extractLsb' 6 10 = b ↔ w &&& 0o177700 = p := extract_eq_iff_and_eq (and_mask6 w) rfl hp

end Predicates

theorem find?_cons_elim {α β : Type} (p : α → Bool) (a : α) (l : List α) (e : β) (f : α → β) :
    ((a :: l).find? p).elim e f = if p a = true then f a else (l.find? p).elim e f := by
  cases hp : p a <;> simp [hp]

/-- The decoder, whose predicates are written on fields, is the search through the rows by mask and match. -/
theorem decode_eq_find (w : Word) :
    decode w = ((readings w).find? (Instr.matchesRow w)).elim (.error (.noRow w)) .ok := by
  simp only [readings, find?_cons_elim, matchesRow_iff, Laws.TableRow.mask, Laws.TableRow.pattern, List.find?_nil,
    Option.elim_none]
  rw [decode]
  simp only [and_mask16,
    opcode4_eq_iff (b := 0o1#4) (p := 0o010000) rfl, opcode4_eq_iff (b := 0o2#4) (p := 0o020000) rfl,
    opcode4_eq_iff (b := 0o6#4) (p := 0o060000) rfl, opcode4_eq_iff (b := 0o16#4) (p := 0o160000) rfl,
    opcode7_eq_iff (b := 0o77#7) (p := 0o077000) rfl, opcode8_eq_iff (b := 0o1#8) (p := 0o000400) rfl,
    opcode8_eq_iff (b := 0o2#8) (p := 0o001000) rfl, opcode8_eq_iff (b := 0o3#8) (p := 0o001400) rfl,
    opcode10_eq_iff (b := 0o62#10) (p := 0o006200) rfl, opcode10_eq_iff (b := 0o63#10) (p := 0o006300) rfl]

/-! ### At most one row matches a word -/

/-- The mask and match values of the rows, in the order of the table. -/
def tableRows : List (Word × Word) :=
  [(0o177777, 0o000000), (0o170000, 0o010000), (0o170000, 0o020000), (0o170000, 0o060000), (0o170000, 0o160000),
    (0o177000, 0o077000), (0o177400, 0o000400), (0o177400, 0o001000), (0o177400, 0o001400), (0o177700, 0o006200),
    (0o177700, 0o006300)]

theorem map_readings (w : Word) :
    (readings w).map (fun i => (Laws.TableRow.mask i, Laws.TableRow.pattern i)) = tableRows := rfl

/-- The match values of any two rows differ where both their masks look. -/
theorem tableRows_pairwise : tableRows.Pairwise fun r q => r.2 &&& q.1 ≠ q.2 &&& r.1 := by decide

theorem readings_pairwise (w : Word) :
    (readings w).Pairwise fun i j => ¬(i.matchesRow w = true ∧ j.matchesRow w = true) := by
  have hrows := tableRows_pairwise
  rw [← map_readings w, List.pairwise_map] at hrows
  refine hrows.imp fun {i j} hne hboth => hne ?_
  obtain ⟨hi, hj⟩ := hboth
  rw [matchesRow_iff] at hi hj
  change Laws.TableRow.pattern i &&& Laws.TableRow.mask j = Laws.TableRow.pattern j &&& Laws.TableRow.mask i
  rw [← hi, ← hj]
  ac_rfl

/-- Where no two members satisfy the predicate, the first that does is the only one. -/
theorem find?_eq_some_iff_of_pairwise {α : Type} {p : α → Bool} {l : List α} {a : α}
    (h : l.Pairwise fun a b => ¬(p a = true ∧ p b = true)) : l.find? p = some a ↔ a ∈ l ∧ p a = true := by
  constructor
  · exact fun hfind => ⟨List.mem_of_find?_eq_some hfind, List.find?_some hfind⟩
  · rintro ⟨hmem, ha⟩
    obtain ⟨b, hb⟩ := Option.isSome_iff_exists.mp (List.find?_isSome.mpr ⟨a, hmem, ha⟩)
    obtain rfl : b = a := by
      have : Std.Symm fun a b => ¬(p a = true ∧ p b = true) := ⟨fun _ _ hxy hyx => hxy hyx.symm⟩
      by_contra hne
      exact h.forall (List.mem_of_find?_eq_some hb) hmem hne ⟨List.find?_some hb, ha⟩
    exact hb

/-- What a word decodes to: the reading in the row that matches it. -/
theorem decode_eq_ok_iff {w : Word} {i : Instr} :
    decode w = .ok i ↔ i ∈ readings w ∧ i.matchesRow w = true := by
  rw [← find?_eq_some_iff_of_pairwise (readings_pairwise w), decode_eq_find]
  cases (readings w).find? (Instr.matchesRow w) <;> simp

theorem decode_eq_error_iff {w : Word} :
    decode w = .error (.noRow w) ↔ ∀ i ∈ readings w, ¬ i.matchesRow w = true := by
  rw [← List.find?_eq_none, decode_eq_find]
  cases (readings w).find? (Instr.matchesRow w) <;> simp

/-- Settles O4: the readings of a word are one for each row, and it decodes to the one whose row matches. -/
theorem decodeFollowsMaskAndMatch : Obligations.DecodeFollowsMaskAndMatch := by
  unfold Obligations.DecodeFollowsMaskAndMatch
  intro w
  simp only [decode_eq_ok_iff, decode_eq_error_iff, matchesRow_iff]
  simp [readings, Laws.TableRow.mask, Laws.TableRow.pattern]

/-! ### The fields of an encoded word -/

theorem reg_encodeSob6 (op : BitVec 7) (reg : Reg) (offset : Nat) :
    Reg.ofBits ((encodeSob6 op reg offset).extractLsb' 6 3) = reg := by
  have := reg.bits.isLt
  have hr : (encodeSob6 op reg offset).extractLsb' 6 3 = reg.bits := extract_eq (by rw [encodeSob6_toNat]; omega)
  rw [hr, Reg.ofBits_bits]

theorem sobOffset_encodeSob6 (op : BitVec 7) (reg : Reg) {offset : Nat} (h : sobOffsetOk offset = true) :
    sobOffset (encodeSob6 op reg offset) = offset := by
  rw [sobOffsetOk, decide_eq_true_eq] at h
  rw [sobOffset, BitVec.extractLsb'_toNat, encodeSob6_toNat]
  omega

theorem branchOffset_encodeBr8 (op : BitVec 8) {offset : Int} (h : branchOffsetOk offset = true) :
    branchOffset (encodeBr8 op offset) = offset := by
  rw [branchOffsetOk, decide_eq_true_eq] at h
  have hfield : (encodeBr8 op offset).extractLsb' 0 8 = BitVec.ofInt 8 offset :=
    extract_eq (by rw [encodeBr8_toNat]; omega)
  rw [branchOffset, hfield, BitVec.toInt_ofInt]
  exact Int.bmod_eq_of_le (by omega) (by omega)

/-- The encoder puts every operand and offset where the decoder reads it. -/
theorem mem_readings_encode {i : Instr} (h : i.wellFormed = true) : i ∈ readings (encode i) := by
  cases i with
  | halt => simp [readings]
  | mov src dst => simp [readings, encode, srcOperand_encodeDop, dstOperand_encodeDop]
  | cmp src dst => simp [readings, encode, srcOperand_encodeDop, dstOperand_encodeDop]
  | add src dst => simp [readings, encode, srcOperand_encodeDop, dstOperand_encodeDop]
  | sub src dst => simp [readings, encode, srcOperand_encodeDop, dstOperand_encodeDop]
  | sob reg offset => simp [readings, encode, reg_encodeSob6, sobOffset_encodeSob6 _ reg h]
  | br offset => simp [readings, encode, branchOffset_encodeBr8 _ h]
  | bne offset => simp [readings, encode, branchOffset_encodeBr8 _ h]
  | beq offset => simp [readings, encode, branchOffset_encodeBr8 _ h]
  | asr dst => simp [readings, encode, dstOperand_encodeSop]
  | asl dst => simp [readings, encode, dstOperand_encodeSop]

/-- Settles O2: an encoded word matches the row of its instruction, and its reading there is the instruction. -/
theorem decodeOfEncodeIsTheInstruction : Obligations.DecodeOfEncodeIsTheInstruction := by
  unfold Obligations.DecodeOfEncodeIsTheInstruction
  intro i h
  exact decode_eq_ok_iff.mpr ⟨mem_readings_encode h, matchesRow_encode i⟩

/-! ### The word from its fields -/

section Rebuild
variable {w : Word}

theorem encodeDop_fields {op : BitVec 4} (h : w.extractLsb' 12 4 = op) :
    encodeDop op (srcOperand w) (dstOperand w) = w := by
  apply BitVec.eq_of_toNat_eq
  rw [encodeDop_toNat, ← h]
  simp only [srcOperand, dstOperand, Mode.bits_ofBits, Reg.bits_ofBits, BitVec.extractLsb'_toNat,
    Nat.shiftRight_eq_div_pow]
  omega

theorem encodeSop_fields {op : BitVec 10} (h : w.extractLsb' 6 10 = op) : encodeSop op (dstOperand w) = w := by
  apply BitVec.eq_of_toNat_eq
  rw [encodeSop_toNat, ← h]
  simp only [dstOperand, Mode.bits_ofBits, Reg.bits_ofBits, BitVec.extractLsb'_toNat, Nat.shiftRight_eq_div_pow]
  omega

theorem encodeBr8_fields {op : BitVec 8} (h : w.extractLsb' 8 8 = op) : encodeBr8 op (branchOffset w) = w := by
  apply BitVec.eq_of_toNat_eq
  rw [encodeBr8_toNat, ← h, branchOffset, BitVec.ofInt_toInt]
  simp only [BitVec.extractLsb'_toNat, Nat.shiftRight_eq_div_pow]
  omega

theorem encodeSob6_fields {op : BitVec 7} (h : w.extractLsb' 9 7 = op) :
    encodeSob6 op (Reg.ofBits (w.extractLsb' 6 3)) (sobOffset w) = w := by
  apply BitVec.eq_of_toNat_eq
  rw [encodeSob6_toNat, ← h]
  simp only [sobOffset, Reg.bits_ofBits, BitVec.extractLsb'_toNat, Nat.shiftRight_eq_div_pow]
  omega

end Rebuild

theorem sobOffsetOk_sobOffset (w : Word) : sobOffsetOk (sobOffset w) = true := by
  have := (w.extractLsb' 0 6).isLt
  rw [sobOffsetOk, decide_eq_true_eq, sobOffset]
  omega

theorem branchOffsetOk_branchOffset (w : Word) : branchOffsetOk (branchOffset w) = true := by
  have hle := BitVec.le_toInt (w.extractLsb' 0 8)
  have hlt := BitVec.toInt_lt (x := w.extractLsb' 0 8)
  rw [branchOffsetOk, decide_eq_true_eq, branchOffset]
  omega

/-- The fields of a word are in range in every row. -/
theorem wellFormed_of_mem_readings (w : Word) : ∀ i ∈ readings w, i.wellFormed = true := by
  simp [readings, Instr.wellFormed, sobOffsetOk_sobOffset, branchOffsetOk_branchOffset]

/-- Where a word matches the row, the row's opcode and the word's fields make up the word. -/
theorem encode_of_mem_readings (w : Word) : ∀ i ∈ readings w, i.matchesRow w = true → encode i = w := by
  simp only [readings, List.forall_mem_cons, matchesRow_iff, Laws.TableRow.mask, Laws.TableRow.pattern, encode,
    and_mask16, List.not_mem_nil, IsEmpty.forall_iff, implies_true, and_true]
  exact ⟨Eq.symm,
    fun h => encodeDop_fields ((opcode4_eq_iff rfl).mpr h), fun h => encodeDop_fields ((opcode4_eq_iff rfl).mpr h),
    fun h => encodeDop_fields ((opcode4_eq_iff rfl).mpr h), fun h => encodeDop_fields ((opcode4_eq_iff rfl).mpr h),
    fun h => encodeSob6_fields ((opcode7_eq_iff rfl).mpr h),
    fun h => encodeBr8_fields ((opcode8_eq_iff rfl).mpr h), fun h => encodeBr8_fields ((opcode8_eq_iff rfl).mpr h),
    fun h => encodeBr8_fields ((opcode8_eq_iff rfl).mpr h),
    fun h => encodeSop_fields ((opcode10_eq_iff rfl).mpr h),
    fun h => encodeSop_fields ((opcode10_eq_iff rfl).mpr h)⟩

/-- Settles O3: what a word decodes to is its reading in the row that matches it. -/
theorem encodeOfDecodeIsTheWord : Obligations.EncodeOfDecodeIsTheWord := by
  unfold Obligations.EncodeOfDecodeIsTheWord
  intro w i h
  obtain ⟨hmem, hrow⟩ := decode_eq_ok_iff.mp h
  exact ⟨wellFormed_of_mem_readings w i hmem, encode_of_mem_readings w i hmem hrow⟩

/-- Settles O1: the decoder computes each of them. -/
theorem writtenOutWordsDecode : Obligations.WrittenOutWordsDecode := by
  unfold Obligations.WrittenOutWordsDecode
  exact ⟨rfl, rfl, rfl, rfl, rfl, rfl, rfl, rfl, rfl, rfl, rfl, rfl, rfl⟩

namespace Machine

/-- Settles O41: a step that stops does so at a read, and a read stops for these two causes alone. -/
theorem onlyOddAddressAndUninitReadStop : Obligations.OnlyOddAddressAndUninitReadStop := by
  unfold Obligations.OnlyOddAddressAndUninitReadStop
  intro s f h
  obtain ⟨c, t, rfl, hc, -⟩ := step_fault_frame h
  rw [FatalCause.left_fault]
  obtain ⟨a, kind, rfl, hodd⟩ | ⟨a, rfl, heven, hnone⟩ := hc
  · exact .inl ⟨a, kind, rfl, rfl, hodd⟩
  · exact .inr ⟨a, rfl, rfl, heven, hnone⟩

end Machine

end Sys2Proof

/-! ## The execution cycle (40_execution_cycle.md R90 to R100)

What each counter is after a completed step comes from one statement about exec: it leaves `State.countsAfter`. -/

namespace Sys2Proof

/-- How many data writes a commit to the operand makes: none to a register (41_operand_resolver.md R122). -/
def Operand.dataWrites (o : Operand) : Nat := if o.mode = .register then 0 else 1

/-- How many data writes an instruction makes: those of its destination. -/
def Instr.dataWrites (i : Instr) : Nat := (i.destination.map Operand.dataWrites).getD 0

theorem Instr.dataWrites_of_destination {i : Instr} {d : Operand} (h : i.destination = some d) :
    i.dataWrites = d.dataWrites := by
  simp [Instr.dataWrites, h]

theorem Instr.dataWrites_of_no_destination {i : Instr} (h : i.destination = none) : i.dataWrites = 0 := by
  simp [Instr.dataWrites, h]

namespace Machine

/-- The counters after the rule of an instruction that completes from `s`: `cnt.inst` is the step's to count (R96), and
the others grow by what the instruction's operands and branch say (R97 to R99). -/
def State.countsAfter (s : State) (i : Instr) : Counters where
  inst := s.cnt.inst
  ifetch := s.cnt.ifetch + (i.operands.map (fun o => o.mode.indexWords)).sum
  dread := s.cnt.dread + (i.operands.map (fun o => o.mode.dataReads)).sum
  dwrite := s.cnt.dwrite + i.dataWrites
  br := s.cnt.br + (if i.isBranch then 1 else 0)
  taken := s.cnt.taken + (if s.takes i then 1 else 0)

theorem State.cnt_foldl_afterOperand (operands : List Operand) (s : State) :
    (operands.foldl State.afterOperand s).cnt =
      { s.cnt with
        ifetch := s.cnt.ifetch + (operands.map (fun o => o.mode.indexWords)).sum
        dread := s.cnt.dread + (operands.map (fun o => o.mode.dataReads)).sum } := by
  induction operands generalizing s with
  | nil => rfl
  | cons o rest ih =>
    rw [List.foldl_cons, ih]
    simp [State.afterOperand, Nat.add_assoc]

/-- What is no branch counts its operands one after the other, and its write. -/
theorem State.countsAfter_of_not_branch (s : State) {i : Instr} (h : i.isBranch = false) :
    s.countsAfter i =
      { (i.operands.foldl State.afterOperand s).cnt with dwrite := s.cnt.dwrite + i.dataWrites } := by
  have htakes : s.takes i = false := by
    cases i with
    | sob | br | bne | beq => cases h
    | _ => rfl
  simp [State.cnt_foldl_afterOperand, State.countsAfter, h, htakes]

/-- A branch counts itself and whether it is taken. -/
theorem State.countsAfter_of_branch (s : State) {i : Instr} (h : i.isBranch = true) :
    s.countsAfter i =
      { s.cnt with br := s.cnt.br + 1, taken := s.cnt.taken + (if s.takes i then 1 else 0) } := by
  cases i with
  | sob | br | bne | beq => rfl
  | _ => cases h

/-! ### The counters across a rule -/

section Rules
variable {src dst : Operand} {s t : State}

theorem State.cnt_afterStore (s : State) (o : Operand) (a v : Word) :
    (s.afterStore o a v).cnt = { s.cnt with dwrite := s.cnt.dwrite + o.dataWrites } := by
  by_cases hm : o.mode = .register <;> simp [State.afterStore, Operand.dataWrites, hm]

/-- A rule that begins with a resolution ends only where the resolution does, and the rest gets its phrase, at an even
address where it names memory. -/
theorem rest_of_resolve_bind_ok {o : Operand} {rest : Phrase → Action Unit} (h : (resolve o >>= rest) s = .ok () t) :
    ∃ a v, (o.mode = .register ∨ isOdd a = false) ∧
      rest ⟨⟨o.mode, o.reg, a⟩, v⟩ (s.afterOperand o) = .ok () t := by
  obtain ⟨a, v, ha, hv, hok⟩ | ⟨c, u, -, herr, -⟩ := resolve_cases o s
  · exact ⟨a, v, State.even_of_operandValue ha hv, (bind_ok hok).symm.trans h⟩
  · cases (bind_error herr).symm.trans h

/-- ASR and ASL, and ADD and SUB after their source: the operand's resolution, the flags, the commit. -/
theorem cnt_of_resolve_updateOperand {o : Operand} {alu : Word → AluResult}
    (h : (do
      let p ← resolve o
      update (fun u => u.setFlags (alu p.value).flags)
      updateOperand p (alu p.value).r) s = .ok () t) :
    t.cnt = { (s.afterOperand o).cnt with dwrite := s.cnt.dwrite + o.dataWrites } := by
  obtain ⟨a, v, heven, hrest⟩ := rest_of_resolve_bind_ok h
  have hcommit : updateOperand ⟨⟨o.mode, o.reg, a⟩, v⟩ (alu v).r ((s.afterOperand o).setFlags (alu v).flags) =
      .ok () t := (bind_ok (update_apply _ _)).symm.trans hrest
  cases (commit_ok heven (alu v).r _).symm.trans hcommit
  exact State.cnt_afterStore _ o a (alu v).r

theorem cnt_of_movRule (h : movRule src dst s = .ok () t) : t.cnt = s.countsAfter (.mov src dst) := by
  rw [State.countsAfter_of_not_branch s rfl]
  obtain ⟨_, v, -, hrest⟩ := rest_of_resolve_bind_ok h
  obtain ⟨a, -, hput⟩ | ⟨c, u, -, herr, -⟩ := putResult_cases dst v (s.afterOperand src)
  · cases (bind_ok hput).symm.trans hrest
    exact State.cnt_afterStore _ dst a v
  · cases (bind_error herr).symm.trans hrest

theorem cnt_of_cmpRule (h : cmpRule src dst s = .ok () t) : t.cnt = s.countsAfter (.cmp src dst) := by
  rw [State.countsAfter_of_not_branch s rfl]
  obtain ⟨_, _, -, hdst⟩ := rest_of_resolve_bind_ok h
  obtain ⟨_, _, -, hflags⟩ := rest_of_resolve_bind_ok hdst
  cases hflags
  rfl

theorem cnt_of_addRule (h : addRule src dst s = .ok () t) : t.cnt = s.countsAfter (.add src dst) := by
  rw [State.countsAfter_of_not_branch s rfl]
  obtain ⟨_, v, -, hdst⟩ := rest_of_resolve_bind_ok h
  exact cnt_of_resolve_updateOperand (alu := aluAdd v) hdst

theorem cnt_of_subRule (h : subRule src dst s = .ok () t) : t.cnt = s.countsAfter (.sub src dst) := by
  rw [State.countsAfter_of_not_branch s rfl]
  obtain ⟨_, v, -, hdst⟩ := rest_of_resolve_bind_ok h
  exact cnt_of_resolve_updateOperand (alu := fun d => aluSub d v) hdst

theorem cnt_of_asrRule (h : asrRule dst s = .ok () t) : t.cnt = s.countsAfter (.asr dst) := by
  rw [State.countsAfter_of_not_branch s rfl]
  exact cnt_of_resolve_updateOperand (alu := aluAsr) h

theorem cnt_of_aslRule (h : aslRule dst s = .ok () t) : t.cnt = s.countsAfter (.asl dst) := by
  rw [State.countsAfter_of_not_branch s rfl]
  exact cnt_of_resolve_updateOperand (alu := aluAsl) h

/-- SOB, BNE and BEQ count the branch, and then count it as taken exactly where they branch. -/
theorem cnt_of_branchOrSkip {i : Instr} {p : Prop} [Decidable p] {offset : Int} {u : State}
    (hi : i.isBranch = true) (htakes : s.takes i = true ↔ p) (hcnt : u.cnt = s.countBr.cnt)
    (h : (if p then branchTo offset else pure ()) u = .ok () t) : t.cnt = s.countsAfter i := by
  rw [State.countsAfter_of_branch s hi]
  by_cases hp : p
  · rw [if_pos hp, branchTo_apply] at h
    cases h
    rw [if_pos (htakes.mpr hp), State.countTaken, State.cnt_setX, hcnt]
    rfl
  · rw [if_neg hp] at h
    cases h
    rw [if_neg (mt htakes.mp hp), hcnt]
    rfl

/-- SOB's register becomes 0 exactly when it held 1 (45_branches.md R170). -/
theorem mask16_pred_eq_zero_iff (v : Word) : mask16 ((v.toNat : Int) - 1) = 0 ↔ v = 1 := by
  have hsub : mask16 ((v.toNat : Int) - 1) = v - 1 := mask16_sub v 1
  rw [hsub, sub_eq_zero]

theorem cnt_of_sobRule {reg : Reg} {n : Nat} (h : sobRule reg n s = .ok () t) :
    t.cnt = s.countsAfter (.sob reg n) := by
  let u := (s.setX reg (mask16 (((s.x reg).toNat : Int) - 1))).countBr
  have hzero : u.x reg = 0 ↔ s.x reg = 1 := by
    rw [State.x_countBr, State.x_setX_self, mask16_pred_eq_zero_iff]
  exact cnt_of_branchOrSkip (p := u.x reg ≠ 0) (u := u) rfl (decide_eq_true_iff.trans (not_congr hzero.symm)) rfl h

theorem cnt_of_brRule {offset : Int} (h : brRule offset s = .ok () t) : t.cnt = s.countsAfter (.br offset) := by
  cases h
  rfl

theorem cnt_of_bneRule {offset : Int} (h : bneRule offset s = .ok () t) : t.cnt = s.countsAfter (.bne offset) :=
  cnt_of_branchOrSkip (p := s.flags.z = false) (u := s.countBr) rfl (Bool.not_eq_true' _).to_iff rfl h

theorem cnt_of_beqRule {offset : Int} (h : beqRule offset s = .ok () t) : t.cnt = s.countsAfter (.beq offset) :=
  cnt_of_branchOrSkip (p := s.flags.z = true) (u := s.countBr) rfl .rfl rfl h

end Rules

/-- An instruction that completes leaves the counters it says it does. -/
theorem cnt_of_exec_next {i : Instr} {s t : State} (h : exec i s = .next t) : t.cnt = s.countsAfter i := by
  cases i with
  | halt =>
    cases h
    rfl
  | mov src dst => exact cnt_of_movRule (runRule_eq_next.mp h)
  | cmp src dst => exact cnt_of_cmpRule (runRule_eq_next.mp h)
  | add src dst => exact cnt_of_addRule (runRule_eq_next.mp h)
  | sub src dst => exact cnt_of_subRule (runRule_eq_next.mp h)
  | sob reg n => exact cnt_of_sobRule (runRule_eq_next.mp h)
  | br offset => exact cnt_of_brRule (runRule_eq_next.mp h)
  | bne offset => exact cnt_of_bneRule (runRule_eq_next.mp h)
  | beq offset => exact cnt_of_beqRule (runRule_eq_next.mp h)
  | asr dst => exact cnt_of_asrRule (runRule_eq_next.mp h)
  | asl dst => exact cnt_of_aslRule (runRule_eq_next.mp h)

/-! ### The counters across a step -/

/-- A completed step has fetched a word, and has skipped it or run and counted its instruction (R90, R96, R97). -/
theorem cnt_of_step_next {s t : State} (h : step s = .next t) :
    (s.current = none ∧ t.cnt = s.fetched.cnt) ∨
    (∃ i, s.current = some i ∧ t.cnt = { s.fetched.countsAfter i with inst := s.cnt.inst + 1 }) := by
  have hfetching : s.run = .fetching := run_of_step_ne_refused (by simp [h])
  obtain ⟨c, -, -, hstop⟩ | ⟨w, i, hw, hd, hexec⟩ | ⟨w, e, hw, hd, hskip⟩ := step_cases hfetching
  · cases hstop.symm.trans h
  · obtain ⟨u, hu, rfl⟩ := endInstruction_eq_next.mp (hexec.symm.trans h)
    refine .inr ⟨i, State.current_of_decode_ok hw hd, ?_⟩
    rw [cnt_resumeFetching, State.countInst, cnt_of_exec_next hu]
    rfl
  · cases hskip.symm.trans h
    exact .inl ⟨State.current_of_decode_error hw hd, rfl⟩

theorem cnt_of_step_next_of_instruction {s t : State} {i : Instr} (h : step s = .next t) (hi : s.current = some i) :
    t.cnt = { s.fetched.countsAfter i with inst := s.cnt.inst + 1 } := by
  obtain ⟨hnone, -⟩ | ⟨j, hj, hcnt⟩ := cnt_of_step_next h
  · cases hnone.symm.trans hi
  · cases hj.symm.trans hi
    exact hcnt

theorem cnt_of_step_next_of_no_instruction {s t : State} (h : step s = .next t) (hi : s.current = none) :
    t.cnt = s.fetched.cnt := by
  obtain ⟨-, hcnt⟩ | ⟨j, hj, -⟩ := cnt_of_step_next h
  · exact hcnt
  · cases hj.symm.trans hi

/-- A step that stops has counted fetches and data reads at most. -/
theorem cnt_of_step_fault {s : State} {f : Fault} (h : step s = .fault f) :
    f.left.cnt.inst = s.cnt.inst ∧ f.left.cnt.br = s.cnt.br ∧ f.left.cnt.taken = s.cnt.taken := by
  obtain ⟨c, t, rfl, -, hframe⟩ := step_fault_frame h
  rw [FatalCause.left_fault, State.cnt_setRun]
  obtain rfl | hframe := hframe
  · exact ⟨rfl, rfl, rfl⟩
  · exact ⟨hframe.inst, hframe.br, hframe.taken⟩

/-- Settles O42: only the end of an instruction's step counts one. -/
theorem instructionsAreCounted : Obligations.InstructionsAreCounted := by
  unfold Obligations.InstructionsAreCounted
  intro s
  refine ⟨fun t i h hi => ?_, fun t h hi => ?_, fun f h => (cnt_of_step_fault h).1⟩
  · rw [cnt_of_step_next_of_instruction h hi]
  · rw [cnt_of_step_next_of_no_instruction h hi]
    rfl

/-- Settles O44: a completed step leaves the reads of its operands' modes and the write of its destination. -/
theorem dataAccessesAreCounted : Obligations.DataAccessesAreCounted := by
  unfold Obligations.DataAccessesAreCounted
  intro s t h
  refine ⟨fun i hi => ?_, fun hi => ?_⟩
  · rw [cnt_of_step_next_of_instruction h hi]
    have hwrites : (s.fetched.countsAfter i).dwrite = s.cnt.dwrite + i.dataWrites := rfl
    refine ⟨rfl, fun d hd hm => ?_, fun d hd hm => ?_, fun hd => ?_⟩
    · rw [hwrites, Instr.dataWrites_of_destination hd, Operand.dataWrites, if_neg hm]
    · rw [hwrites, Instr.dataWrites_of_destination hd, Operand.dataWrites, if_pos hm, Nat.add_zero]
    · rw [hwrites, Instr.dataWrites_of_no_destination hd, Nat.add_zero]
  · rw [cnt_of_step_next_of_no_instruction h hi]
    exact ⟨rfl, rfl⟩

/-- Settles O45: a completed step counts the branch of its instruction, and a stopped one has not come to a branch. -/
theorem branchesAreCounted : Obligations.BranchesAreCounted := by
  unfold Obligations.BranchesAreCounted
  intro s
  refine ⟨fun t i h hi => ?_, fun t h hi => ?_, fun f h => (cnt_of_step_fault h).2⟩
  · rw [cnt_of_step_next_of_instruction h hi]
    exact ⟨rfl, rfl⟩
  · rw [cnt_of_step_next_of_no_instruction h hi]
    exact ⟨rfl, rfl⟩

/-! ### Safe runs -/

theorem exec_ne_refused (i : Instr) (s : State) (r : Refusal) : exec i s ≠ .refused r := by
  obtain ⟨rule, hrule, -⟩ := exec_ruleOutcome i s
  rw [hrule]
  exact runRule_ne_refused

theorem endInstruction_eq_refused {o : Host.Outcome State Fault Refusal} {r : Refusal} :
    endInstruction o = .refused r ↔ o = .refused r := by
  cases o <;> simp [endInstruction]

/-- What a refusal names is the run state, the one reason for it (60_exceptions.md R225). -/
theorem refusal_of_step_refused {s : State} {r : Refusal} (h : step s = .refused r) : r = .noStepEnabled s.run := by
  by_cases hfetching : s.run = .fetching
  · obtain ⟨c, -, -, hstop⟩ | ⟨w, i, -, -, hexec⟩ | ⟨w, e, -, -, hskip⟩ := step_cases hfetching
    · cases hstop.symm.trans h
    · exact absurd (endInstruction_eq_refused.mp (hexec.symm.trans h)) (exec_ne_refused i s.fetched r)
    · cases hskip.symm.trans h
  · cases (step_not_fetching hfetching).symm.trans h
    rfl

/-- Settles O54, by induction on the number of steps: a run that ends early ends at a fault, which is not safe, or at a
refusal, which names the run state that safety asks about. -/
theorem safeRunsGoOnOrHalt : Obligations.SafeRunsGoOnOrHalt := by
  unfold Obligations.SafeRunsGoOnOrHalt
  intro n
  induction n with
  | zero => exact fun s => iff_of_true rfl (.inl ⟨s, rfl⟩)
  | succ n ih =>
    intro s
    cases h : step s with
    | next t => rw [run_of_next (M := core) n h, ← ih t, safeFor, h]
    | fault f =>
      rw [run_of_fault (M := core) n h, safeFor, h]
      simp
    | refused r =>
      obtain rfl := refusal_of_step_refused h
      rw [run_of_refused (M := core) n h, safeFor, h]
      refine decide_eq_true_iff.trans ⟨fun hhalted => .inr (by rw [hhalted]), ?_⟩
      rintro (⟨t, ht⟩ | hhalted)
      · cases ht
      · exact Refusal.noStepEnabled.inj (Host.Outcome.refused.inj hhalted)

/-! ### The fetch and the step -/

theorem State.wordAt_of_even {s : State} {a : Word} (h : isOdd a = false) : s.wordAt a = s.mem.get (wordIndex a) := by
  simp [State.wordAt, h]

theorem fetchWord_of_readStop {kind : AccessKind} {s : State} {c : FatalCause} (hc : ReadStop s kind s.pc c) :
    fetchWord kind s = .error c s := by
  obtain ⟨w, heven, hw, -⟩ | ⟨d, hd, herr⟩ := fetchWord_cases kind s
  · cases hc.wordAt.symm.trans ((State.wordAt_of_even heven).trans hw)
  · rw [herr, hd.unique hc]

/-- Settles O8: an odd PC, or an even one whose word holds no value, is what stops a fetch. -/
theorem fetchWordAdvancesThePc : Obligations.FetchWordAdvancesThePc := by
  unfold Obligations.FetchWordAdvancesThePc
  intro kind s w
  exact ⟨fun hodd => fetchWord_of_readStop (.odd hodd),
    fun heven hnone => fetchWord_of_readStop (.noValue heven hnone),
    fun heven hw => fetchWord_of_wordAt ((State.wordAt_of_even heven).trans hw)⟩

theorem step_of_decode_ok {s : State} {w : Word} {i : Instr} (hr : s.run = .fetching) (hw : s.wordAt s.pc = some w)
    (hd : decode w = .ok i) : step s = endInstruction (exec i s.fetched) := by
  obtain ⟨c, hnone, -, -⟩ | ⟨v, j, hv, hj, hexec⟩ | ⟨v, e, hv, he, -⟩ := step_cases hr
  · cases hnone.symm.trans hw
  · cases hv.symm.trans hw
    cases hj.symm.trans hd
    exact hexec
  · cases hv.symm.trans hw
    cases he.symm.trans hd

theorem resumeFetching_eq_ite (s : State) :
    resumeFetching s = { s with run := if s.run = .executing then .fetching else s.run } := by
  obtain ⟨regs, flags, run, cnt, mem, ia⟩ := s
  cases run <;> rfl

/-- Settles O34: with a word at the PC that decodes, the step is the end of its instruction. -/
theorem stepRunsTheDecodedInstruction : Obligations.StepRunsTheDecodedInstruction := by
  unfold Obligations.StepRunsTheDecodedInstruction
  intro s t w i f hr hw hd
  have hstep := step_of_decode_ok hr hw hd
  refine ⟨fun hnext => ?_, fun hfault => ?_⟩
  · rw [hstep, hnext, endInstruction_next, resumeFetching_eq_ite]
    rfl
  · exact hstep.trans (endInstruction_eq_fault.mpr hfault)

/-- Settles O37: the step looks at the run state first. -/
theorem noStepOutsideFetching : Obligations.NoStepOutsideFetching := by
  unfold Obligations.NoStepOutsideFetching
  exact fun _ => step_not_fetching

/-- The start of a step writes `ia` before anything reads it. -/
theorem beginStep_setIa (s : State) (a : Word) : beginStep (s.setIa a) = beginStep s := rfl

/-- Settles O53: only the start of a step sees the state as it was before, and it writes `ia` first. -/
theorem instructionAddressIsNotCarriedOver : Obligations.InstructionAddressIsNotCarriedOver := by
  unfold Obligations.InstructionAddressIsNotCarriedOver
  intro s a
  unfold step
  rw [State.run_setIa, beginStep_setIa]

/-! ### The placed word -/

/-- An address and the ones 2 and 4 behind it name different words, also where they wrap. -/
theorem wordIndex_ne_wordIndex_add {a k : Word} (hk : 2 ≤ k.toNat) (hk' : k.toNat ≤ 4) :
    wordIndex a ≠ wordIndex (a + k) := by
  have hadd : (a + k).toNat = (a.toNat + k.toNat) % 65536 := BitVec.toNat_add a k
  have ha : a.toNat < 65536 := a.isLt
  simp only [wordIndex, hadd]
  omega

/-- Settles O60: the words of 0 are put at other words than the one at the PC. -/
theorem placedWordIsFetchedNext : Obligations.PlacedWordIsFetchedNext := by
  unfold Obligations.PlacedWordIsFetchedNext
  intro s nbits w heven
  refine ⟨?_, fun k hpc hpc2 hpc4 => ?_⟩
  · rw [State.wordAt_of_even heven, State.withFetchWord, State.mem_setMem,
      Memory.get_put_ne _ _ (wordIndex_ne_wordIndex_add (k := 4) (by decide) (by decide)),
      Memory.get_put_ne _ _ (wordIndex_ne_wordIndex_add (k := 2) (by decide) (by decide)), Memory.get_put_self]
  · rw [State.withFetchWord, State.mem_setMem, Memory.get_put_ne _ _ hpc4, Memory.get_put_ne _ _ hpc2,
      Memory.get_put_ne _ _ hpc]

end Machine
end Sys2Proof

/-! ## The mode table and the side effects of a shared register (41_operand_resolver.md R112 to R119, R127, R128) -/

namespace Sys2Proof.Machine

section Operands
variable {o src dst : Operand} {r : Reg} {s t : State} {a u v : Word}

/-! ### A resolution that reads values -/

theorem operandValue_of_wordAt (hm : o.mode ≠ .register) (ha : s.operandAddr o = some a)
    (hv : s.wordAt a = some v) : s.operandValue o = some v := by
  simp only [State.operandValue, if_neg hm, ha, Option.bind_some, hv]

/-- An operand that has a value has an address, and resolves to both. -/
theorem exists_resolve_of_operandValue (hv : s.operandValue o = some v) :
    ∃ a, s.operandAddr o = some a ∧ resolve o s = .ok ⟨⟨o.mode, o.reg, a⟩, v⟩ (s.afterOperand o) := by
  obtain ⟨a, w, ha, hw, hok⟩ | ⟨c, t, hnone, -⟩ := resolve_cases o s
  · cases hw.symm.trans hv
    exact ⟨a, ha, hok⟩
  · cases hnone.symm.trans hv

theorem resolve_of_operandValue (ha : s.operandAddr o = some a) (hv : s.operandValue o = some v) :
    resolve o s = .ok ⟨⟨o.mode, o.reg, a⟩, v⟩ (s.afterOperand o) := by
  obtain ⟨b, hb, hok⟩ := exists_resolve_of_operandValue hv
  cases hb.symm.trans ha
  exact hok

/-- A memory mode resolves to the address of the mode table and the word there. -/
theorem resolve_of_wordAt (hm : o.mode ≠ .register) (ha : s.operandAddr o = some a) (hv : s.wordAt a = some v) :
    resolve o s = .ok ⟨⟨o.mode, o.reg, a⟩, v⟩ (s.afterOperand o) :=
  resolve_of_operandValue ha (operandValue_of_wordAt hm ha hv)

/-- The base of the index modes is the register once the PC has passed the index word. -/
theorem State.x_setX_pc_add_two (s : State) (r : Reg) : (s.setX .r7 (s.pc + 2)).x r = s.indexBase r :=
  s.x_after_index r

/-! ### The registers after a resolution -/

theorem State.x_of_regs_eq_set (h : t.regs = s.regs.set r v) : t.x r = v ∧ ∀ q, q ≠ r → t.x q = s.x q := by
  simp only [State.x, h]
  exact ⟨RegFile.get_set_self _ _ _, fun q hq => RegFile.get_set_ne _ _ hq⟩

theorem State.regs_afterOperand_of_autoInc (s : State) (h : o.mode = .autoInc ∨ o.mode = .autoIncIndirect) :
    (s.afterOperand o).regs = s.regs.set o.reg (s.x o.reg + 2) := by
  obtain ⟨m, r⟩ := o
  obtain rfl | rfl := h <;> rfl

theorem State.regs_afterOperand_of_autoDec (s : State) (h : o.mode = .autoDec ∨ o.mode = .autoDecIndirect) :
    (s.afterOperand o).regs = s.regs.set o.reg (s.x o.reg - 2) := by
  obtain ⟨m, r⟩ := o
  obtain rfl | rfl := h <;> rfl

theorem State.afterOperand_of_register (s : State) (h : o.mode = .register) : s.afterOperand o = s := by
  obtain ⟨m, r⟩ := o
  subst h
  rfl

/-! ### MOV, ADD and CMP with operands that resolve -/

@[simp] theorem State.flags_afterStore (s : State) (o : Operand) (a v : Word) :
    (s.afterStore o a v).flags = s.flags := by
  unfold State.afterStore
  split <;> rfl

theorem exec_mov_of_operandValue (hv : s.operandValue src = some v)
    (ha : (s.afterOperand src).storeAddr dst = some a) :
    exec (.mov src dst) s = .next
      ((((s.afterOperand src).afterOperand dst).afterStore dst a v).setFlags (movFlags v s.flags)) := by
  obtain ⟨_, -, hsrc⟩ := exists_resolve_of_operandValue hv
  obtain ⟨b, hb, hput⟩ | ⟨c, t, hnone, -⟩ := putResult_cases dst v (s.afterOperand src)
  · cases hb.symm.trans ha
    apply runRule_ok
    rw [movRule, bind_ok hsrc, bind_ok hput, update_apply, State.flags_afterStore]
    rfl
  · cases hnone.symm.trans ha

theorem exec_cmp_of_operandValue (hv : s.operandValue src = some v)
    (hu : (s.afterOperand src).operandValue dst = some u) :
    exec (.cmp src dst) s = .next (((s.afterOperand src).afterOperand dst).setFlags (aluSub v u).flags) := by
  obtain ⟨_, -, hsrc⟩ := exists_resolve_of_operandValue hv
  obtain ⟨_, -, hdst⟩ := exists_resolve_of_operandValue hu
  apply runRule_ok
  rw [cmpRule, bind_ok hsrc, bind_ok hdst, update_apply]

/-- ASR and ASL, and ADD and SUB after their source: the flags and the result of an operand that resolves. -/
theorem resolve_updateOperand_of_operandValue {alu : Word → AluResult} (ha : s.operandAddr o = some a)
    (hv : s.operandValue o = some v) :
    (do
      let p ← resolve o
      update (fun t => t.setFlags (alu p.value).flags)
      updateOperand p (alu p.value).r) s =
        .ok () (((s.afterOperand o).setFlags (alu v).flags).afterStore o a (alu v).r) := by
  rw [bind_ok (resolve_of_operandValue ha hv), bind_ok (update_apply _ _)]
  exact commit_ok (State.even_of_operandValue ha hv) _ _

theorem exec_add_of_operandValue (hv : s.operandValue src = some v)
    (ha : (s.afterOperand src).operandAddr dst = some a) (hu : (s.afterOperand src).operandValue dst = some u) :
    exec (.add src dst) s = .next
      ((((s.afterOperand src).afterOperand dst).setFlags (aluAdd v u).flags).afterStore dst a (v + u)) := by
  obtain ⟨_, -, hsrc⟩ := exists_resolve_of_operandValue hv
  apply runRule_ok
  rw [addRule, bind_ok hsrc, resolve_updateOperand_of_operandValue (alu := aluAdd v) ha hu, aluAdd_r]

/-! ### One register in both specifiers -/

theorem State.isOdd_of_wordAt (h : s.wordAt a = some v) : isOdd a = false := by
  cases hodd : isOdd a with
  | false => rfl
  | true => simp [State.wordAt, hodd] at h

theorem isOdd_add_two (a : Word) : isOdd (a + 2) = isOdd a := by
  rw [← isOdd_sub_two (a + 2), BitVec.add_sub_cancel]

theorem State.x_afterOperand_autoInc (s : State) (r : Reg) : (s.afterOperand ⟨.autoInc, r⟩).x r = s.x r + 2 :=
  RegFile.get_set_self _ _ _

theorem State.x_afterOperand_autoDec (s : State) (r : Reg) : (s.afterOperand ⟨.autoDec, r⟩).x r = s.x r - 2 :=
  RegFile.get_set_self _ _ _

/-- An autoincrement destination at an even address is stored at the register's old value. -/
theorem State.storeAddr_autoInc (h : isOdd (s.x r) = false) : s.storeAddr ⟨.autoInc, r⟩ = some (s.x r) := by
  simp [State.storeAddr, State.operandAddr, h]

end Operands

/-! ### What the resolver does, and what two specifiers of one register do -/

/-- Settles O9: each memory mode's address in the mode table, with the word read there; mode 0 reads the register. -/
theorem resolverFollowsTheModeTable : Obligations.ResolverFollowsTheModeTable := by
  unfold Obligations.ResolverFollowsTheModeTable
  intro r s a v
  refine ⟨rfl, fun hv => ?indirect, fun hv => ?autoInc, fun ha hv => ?autoIncIndirect, fun hv => ?autoDec,
    fun ha hv => ?autoDecIndirect⟩
  case indirect => exact resolve_of_wordAt nofun rfl hv
  case autoInc => exact resolve_of_wordAt nofun rfl hv
  case autoIncIndirect => exact resolve_of_wordAt nofun ha hv
  case autoDec => exact resolve_of_wordAt nofun rfl hv
  case autoDecIndirect => exact resolve_of_wordAt nofun ha hv

/-- Settles O10: with a word at the PC the mode table has an address for modes 6 and 7, and the word there is read. -/
theorem indexModesConsumeTheWordAtThePc : Obligations.IndexModesConsumeTheWordAtThePc := by
  unfold Obligations.IndexModesConsumeTheWordAtThePc
  intro r s X a v
  rw [State.x_setX_pc_add_two]
  exact ⟨fun hX hv => resolve_of_wordAt nofun (operandAddr_index hX) hv,
    fun hX ha hv => resolve_of_wordAt nofun (operandAddr_indexDeferred hX ha) hv⟩

/-- Settles O11: a resolution that ends leaves the state of the mode table. -/
theorem modesChangeOnlyTheirRegister : Obligations.ModesChangeOnlyTheirRegister := by
  unfold Obligations.ModesChangeOnlyTheirRegister
  intro o s t p h
  obtain ⟨rfl, -⟩ := resolve_ok_entry h
  exact ⟨State.afterOperand_of_register s,
    fun hm => State.x_of_regs_eq_set (State.regs_afterOperand_of_autoInc s hm),
    fun hm => State.x_of_regs_eq_set (State.regs_afterOperand_of_autoDec s hm)⟩

/-- Settles O14: the destination is resolved in the state the source's resolution leaves, so a source that steps the
register has stepped it already, while the source's value was taken before. -/
theorem destinationSeesTheSourcesSideEffects : Obligations.DestinationSeesTheSourcesSideEffects := by
  unfold Obligations.DestinationSeesTheSourcesSideEffects
  intro r s u v
  have hinc := s.x_afterOperand_autoInc r
  have hdec := s.x_afterOperand_autoDec r
  refine ⟨fun hv => ?movIncInc, fun heven => ?movRegisterInc, fun hv => ?addIncRegister, fun hv hu => ?cmpDecDec⟩
  case movIncInc =>
    have hsrc : s.operandValue ⟨.autoInc, r⟩ = some v := operandValue_of_wordAt nofun rfl hv
    have hdst : (s.afterOperand ⟨.autoInc, r⟩).storeAddr ⟨.autoInc, r⟩ = some (s.x r + 2) := by
      have heven : isOdd (s.x r + 2) = false := (isOdd_add_two _).trans (State.isOdd_of_wordAt hv)
      rw [State.storeAddr_autoInc (hinc.symm ▸ heven), hinc]
    refine ⟨_, exec_mov_of_operandValue hsrc hdst, ?_, rfl⟩
    calc ((s.afterOperand ⟨.autoInc, r⟩).afterOperand ⟨.autoInc, r⟩).x r
      _ = s.x r + 2 + 2 := by rw [State.x_afterOperand_autoInc, hinc]
      _ = s.x r + 4 := add_assoc _ _ _
  case movRegisterInc =>
    have hdst : (s.afterOperand ⟨.register, r⟩).storeAddr ⟨.autoInc, r⟩ = some (s.x r) := State.storeAddr_autoInc heven
    exact ⟨_, exec_mov_of_operandValue rfl hdst, hinc, rfl⟩
  case addIncRegister =>
    have hsrc : s.operandValue ⟨.autoInc, r⟩ = some v := operandValue_of_wordAt nofun rfl hv
    have hdst : (s.afterOperand ⟨.autoInc, r⟩).operandValue ⟨.register, r⟩ = some (s.x r + 2) := congrArg some hinc
    exact ⟨_, exec_add_of_operandValue hsrc rfl hdst, RegFile.get_set_self _ _ _, rfl⟩
  case cmpDecDec =>
    have hsub : s.x r - 2 - 2 = s.x r - 4 := sub_sub _ _ _
    have hsrc : s.operandValue ⟨.autoDec, r⟩ = some v := operandValue_of_wordAt nofun rfl hv
    have hdst : (s.afterOperand ⟨.autoDec, r⟩).operandValue ⟨.autoDec, r⟩ = some u := by
      refine operandValue_of_wordAt nofun rfl ?_
      rw [State.wordAt_of_mem (s.mem_afterOperand _), hdec, hsub, hu]
    refine ⟨_, exec_cmp_of_operandValue hsrc hdst, ?_, rfl, rfl⟩
    rw [State.x_setFlags, State.x_afterOperand_autoDec, hdec, hsub]

end Sys2Proof.Machine

/-! ## HALT, and what the other control instructions leave unchanged (42_halt.md R140, R141) -/

namespace Sys2Proof.Machine

/-! ### Actions that keep what is observed of the state -/

/-- Wherever the action ends, the observation `f` of the state is as it was. -/
def Keeps {α β : Type} (f : State → β) (p : Action α) : Prop := ∀ s t a, p s = .ok a t → f t = f s

section Keeps
variable {α β γ : Type} {f : State → γ}

theorem Keeps.bind {p : Action α} {rest : α → Action β} (hp : Keeps f p) (hrest : ∀ a, Keeps f (rest a)) :
    Keeps f (p >>= rest) := by
  intro s t b h
  obtain ⟨a, u, hu, ht⟩ := bind_eq_ok.mp h
  exact (hrest a u t b ht).trans (hp s u a hu)

theorem Keeps.update {g : State → State} (h : ∀ s, f (g s) = f s) : Keeps f (update g) := by
  intro s t a hok
  cases hok
  exact h s

theorem Keeps.readX (r : Reg) : Keeps f (readX r) := by
  intro s t a hok
  cases hok
  rfl

theorem Keeps.readZ : Keeps f readZ := by
  intro s t a hok
  cases hok
  rfl

theorem Keeps.of_runRule_next {rule : Action Unit} {s t : State} (hrule : Keeps f rule)
    (h : runRule rule s = .next t) : f t = f s :=
  hrule s t () (runRule_eq_next.mp h)

end Keeps

/-! ### The branches -/

/-- The observation sees neither the PC nor the branch counters. -/
structure IgnoresBranch {γ : Type} (f : State → γ) : Prop where
  pc : ∀ s v, f (s.setX .r7 v) = f s
  br : ∀ s, f s.countBr = f s
  taken : ∀ s, f s.countTaken = f s

/-- What a branch leaves alone: all but registers and the branch counters. -/
structure BranchFrame (s t : State) : Prop where
  flags : t.flags = s.flags
  run : t.run = s.run
  mem : t.mem = s.mem
  ia : t.ia = s.ia
  inst : t.cnt.inst = s.cnt.inst
  ifetch : t.cnt.ifetch = s.cnt.ifetch
  dread : t.cnt.dread = s.cnt.dread
  dwrite : t.cnt.dwrite = s.cnt.dwrite

section Branches
variable {γ : Type} {f : State → γ} {i : Instr} {s t : State}

theorem IgnoresBranch.keeps_branchTo (hf : IgnoresBranch f) (offset : Int) : Keeps f (branchTo offset) :=
  .bind (.update fun s => hf.pc s _) fun _ => .update hf.taken

theorem IgnoresBranch.keeps_branchOrSkip (hf : IgnoresBranch f) (p : Prop) [Decidable p] (offset : Int) :
    Keeps f (if p then branchTo offset else pure ()) := by
  split
  · exact hf.keeps_branchTo offset
  · exact .update fun _ => rfl

/-- Completed, a branch has written the PC, the branch counters and, if it is SOB, its register. -/
theorem IgnoresBranch.of_exec_next (hf : IgnoresBranch f) (hi : i.isBranch = true)
    (hreg : ∀ r n, i = .sob r n → ∀ s v, f (s.setX r v) = f s) (h : exec i s = .next t) : f t = f s := by
  cases i with
  | sob r n =>
    exact Keeps.of_runRule_next (.bind (.update fun s => hreg r n rfl s _) fun _ => .bind (.update hf.br) fun _ =>
      .bind (.readX r) fun _ => hf.keeps_branchOrSkip _ _) h
  | br offset => exact Keeps.of_runRule_next (.bind (.update hf.br) fun _ => hf.keeps_branchTo offset) h
  | bne offset | beq offset =>
    exact Keeps.of_runRule_next (.bind (.update hf.br) fun _ => .bind .readZ fun _ => hf.keeps_branchOrSkip _ offset) h
  | _ => cases hi

theorem branchFrame_of_exec_next (hi : i.isBranch = true) (h : exec i s = .next t) : BranchFrame s t := by
  have hf : IgnoresBranch fun u : State => { u with regs := t.regs, cnt := t.cnt } :=
    ⟨fun _ _ => rfl, fun _ => rfl, fun _ => rfl⟩
  have hrest : t = { s with regs := t.regs, cnt := t.cnt } := hf.of_exec_next hi (fun _ _ _ _ _ => rfl) h
  have hcnt := (cnt_of_exec_next h).trans (s.countsAfter_of_branch hi)
  exact {
    flags := by rw [hrest]
    run := by rw [hrest]
    mem := by rw [hrest]
    ia := by rw [hrest]
    inst := by rw [hcnt]
    ifetch := by rw [hcnt]
    dread := by rw [hcnt]
    dwrite := by rw [hcnt] }

/-- The only registers a branch writes are the PC and SOB's own. -/
theorem x_of_branch_next {r : Reg} (hi : i.isBranch = true) (hpc : r ≠ .r7) (hown : ∀ n, i ≠ .sob r n)
    (h : exec i s = .next t) : t.x r = s.x r := by
  have hf : IgnoresBranch fun u : State => u.x r := ⟨fun u v => u.x_setX_ne v hpc, fun _ => rfl, fun _ => rfl⟩
  refine hf.of_exec_next hi (fun q n hq u v => u.x_setX_ne v ?_) h
  rintro rfl
  exact hown n hq

end Branches

theorem exec_halt_eq_next (s : State) : exec .halt s = .next (s.setRun .halted) :=
  (exec_halt s).trans (runRule_ok (update_apply _ _))

/-- Settles O33: HALT leaves the state with another run state, and a branch writes the PC, the branch counters and SOB's
register alone. -/
theorem controlInstructionsFrame : Obligations.ControlInstructionsFrame := by
  unfold Obligations.ControlInstructionsFrame
  intro reg n offset s t i hi h
  obtain rfl | hi := hi
  · cases (exec_halt_eq_next s).symm.trans h
    exact ⟨fun _ _ _ => rfl, fun _ => ⟨rfl, rfl⟩, fun hne => absurd rfl hne, rfl, rfl, rfl, rfl, rfl, rfl,
      fun _ => rfl⟩
  · have hbranch : i.isBranch = true := by obtain rfl | rfl | rfl | rfl := hi <;> rfl
    have hregs : ∀ r, r ≠ .r7 → ¬(i = .sob reg n ∧ r = reg) → t.x r = s.x r := by
      intro r hpc hown
      refine x_of_branch_next hbranch hpc ?_ h
      rintro m rfl
      obtain ⟨rfl, rfl⟩ : r = reg ∧ m = n := by simpa using hi
      exact hown ⟨rfl, rfl⟩
    have hframe := branchFrame_of_exec_next hbranch h
    refine ⟨hregs, ?_, fun _ => hframe.run, hframe.flags, hframe.ia, hframe.inst, hframe.ifetch, hframe.dread,
      hframe.dwrite, fun k => by rw [hframe.mem]⟩
    rintro rfl
    cases hbranch

/-! ### Only HALT writes the run state -/

section Run
variable {i : Instr} {s t : State}

theorem keepsRun_resolve (o : Operand) : Keeps State.run (resolve o) := by
  intro s t p h
  obtain ⟨rfl, -⟩ := resolve_ok_entry h
  rfl

theorem keepsRun_setFlags (g : State → Flags) : Keeps State.run (update fun t => t.setFlags (g t)) :=
  .update fun _ => rfl

theorem keepsRun_dataWrite (a v : Word) : Keeps State.run (dataWrite a v) := by
  intro s t u h
  obtain ⟨-, hok⟩ | ⟨-, herr⟩ := dataWrite_cases a v s
  · cases hok.symm.trans h
    rfl
  · cases herr.symm.trans h

theorem keepsRun_commit (q : Target) (v : Word) : Keeps State.run (commit q v) := by
  by_cases hm : q.mode = .register
  · obtain ⟨m, r, a⟩ := q
    subst hm
    exact .update fun _ => rfl
  · rw [commit_of_ne hm]
    exact keepsRun_dataWrite q.addr v

theorem keepsRun_putResult (o : Operand) (v : Word) : Keeps State.run (putResult o v) := by
  refine .bind ?_ fun q => keepsRun_commit q v
  intro s t q h
  obtain ⟨a, -, hok⟩ | ⟨c, u, -, herr, -⟩ := resolveTarget_cases o s
  · cases hok.symm.trans h
    rfl
  · cases herr.symm.trans h

/-- ASR and ASL, and ADD and SUB after their source. -/
theorem keepsRun_resolve_updateOperand (o : Operand) (alu : Word → AluResult) :
    Keeps State.run (do
      let p ← resolve o
      update (fun t => t.setFlags (alu p.value).flags)
      updateOperand p (alu p.value).r) :=
  (keepsRun_resolve o).bind fun p => (keepsRun_setFlags _).bind fun _ => keepsRun_commit p.toTarget _

theorem run_of_exec_next_of_ne_halt (hi : i ≠ .halt) (h : exec i s = .next t) : t.run = s.run := by
  cases i with
  | halt => exact absurd rfl hi
  | mov src dst =>
    exact Keeps.of_runRule_next ((keepsRun_resolve src).bind fun _ => (keepsRun_putResult dst _).bind fun _ =>
      keepsRun_setFlags _) h
  | cmp src dst =>
    exact Keeps.of_runRule_next ((keepsRun_resolve src).bind fun _ => (keepsRun_resolve dst).bind fun _ =>
      keepsRun_setFlags _) h
  | add src dst =>
    exact Keeps.of_runRule_next ((keepsRun_resolve src).bind fun p =>
      keepsRun_resolve_updateOperand dst (aluAdd p.value)) h
  | sub src dst =>
    exact Keeps.of_runRule_next ((keepsRun_resolve src).bind fun p =>
      keepsRun_resolve_updateOperand dst fun d => aluSub d p.value) h
  | asr dst => exact (keepsRun_resolve_updateOperand dst aluAsr).of_runRule_next h
  | asl dst => exact (keepsRun_resolve_updateOperand dst aluAsl).of_runRule_next h
  | sob | br | bne | beq => exact (branchFrame_of_exec_next rfl h).run

/-- An instruction that completes from EXECUTING has halted exactly if it is HALT. -/
theorem halted_resumeFetching_iff (hs : s.run = .executing) (h : exec i s = .next t) :
    (resumeFetching t.countInst).run = .halted ↔ i = .halt := by
  by_cases hi : i = .halt
  · subst hi
    cases (exec_halt_eq_next s).symm.trans h
    exact iff_of_true rfl rfl
  · have hrun : t.run = .executing := (run_of_exec_next_of_ne_halt hi h).trans hs
    have hresumed : (resumeFetching t.countInst).run = .fetching := run_resumeFetching_of_executing hrun
    exact iff_of_false (by simp [hresumed]) hi

end Run

/-- The row of HALT matches the whole word (30_encoding.md R74). -/
theorem decode_eq_halt_iff {w : Word} : decode w = .ok .halt ↔ w = 0 := by
  obtain ⟨hhalt, -⟩ := decodeFollowsMaskAndMatch w
  rwa [and_mask16] at hhalt

/-- Settles O36: a completed step runs the instruction of the word at the PC or skips the word; it halts if that is
HALT, which only the word 0 decodes to. -/
theorem onlyTheZeroWordHalts : Obligations.OnlyTheZeroWordHalts := by
  unfold Obligations.OnlyTheZeroWordHalts
  intro s t hrun h
  obtain ⟨c, -, -, hstop⟩ | ⟨w, i, hw, hd, hexec⟩ | ⟨w, e, hw, hd, hskip⟩ := step_cases hrun
  · cases hstop.symm.trans h
  · obtain ⟨u, hu, rfl⟩ := endInstruction_eq_next.mp (hexec.symm.trans h)
    calc (resumeFetching u.countInst).run = .halted
      _ ↔ i = .halt := halted_resumeFetching_iff rfl hu
      _ ↔ w = 0 := by rw [← decode_eq_halt_iff, hd, Except.ok.injEq]
      _ ↔ s.wordAt s.pc = some 0 := by rw [hw, Option.some.injEq]
  · cases hskip.symm.trans h
    have hne : w ≠ 0 := by
      rintro rfl
      cases hd.symm.trans (decode_eq_halt_iff.mpr rfl)
    exact iff_of_false nofun (by rwa [hw, Option.some.injEq])

/-- Settles O18: the one update of HALT's rule. -/
theorem haltStopsTheRun : Obligations.HaltStopsTheRun := by
  unfold Obligations.HaltStopsTheRun
  exact exec_halt_eq_next

end Sys2Proof.Machine

/-! ## MOV, and what MOV, ADD and SUB leave unchanged (43_move.md R145, 44_arithmetic.md R156, R157) -/

namespace Sys2Proof.Machine

section Move
variable {o src dst : Operand} {s t : State} {a v : Word} {i : Instr}

/-! ### How MOV ends -/

/-- A rule that begins with a resolution stops where the operand has no value. -/
theorem runRule_resolve_bind_fault (rest : Phrase → Action Unit) (hv : s.operandValue o = none) :
    ∃ f, runRule (resolve o >>= rest) s = .fault f := by
  obtain ⟨a, w, -, hw, -⟩ | ⟨c, t, -, herr, -⟩ := resolve_cases o s
  · cases hv.symm.trans hw
  · exact ⟨_, runRule_error (bind_error herr)⟩

theorem exec_mov_fault (h : s.operandValue src = none ∨ (s.afterOperand src).storeAddr dst = none) :
    ∃ f, exec (.mov src dst) s = .fault f := by
  cases hv : s.operandValue src with
  | none => exact runRule_resolve_bind_fault _ hv
  | some v =>
    have hnone : (s.afterOperand src).storeAddr dst = none := h.resolve_left (by simp [hv])
    obtain ⟨_, -, hsrc⟩ := exists_resolve_of_operandValue hv
    obtain ⟨a, ha, -⟩ | ⟨c, t, -, herr, -⟩ := putResult_cases dst v (s.afterOperand src)
    · cases hnone.symm.trans ha
    · exact ⟨_, runRule_error ((bind_ok hsrc).trans (bind_error herr))⟩

/-- Completed, MOV has stored a value at the address put_result found, and set the flags of that value. -/
theorem exec_mov_next (h : exec (.mov src dst) s = .next t) :
    ∃ a v, (s.afterOperand src).storeAddr dst = some a ∧
      t = (((s.afterOperand src).afterOperand dst).afterStore dst a v).setFlags (movFlags v s.flags) := by
  have hcompletes : ¬(s.operandValue src = none ∨ (s.afterOperand src).storeAddr dst = none) := by
    intro hnone
    obtain ⟨f, hf⟩ := exec_mov_fault hnone
    cases hf.symm.trans h
  obtain ⟨hsrc, hdst⟩ := not_or.mp hcompletes
  obtain ⟨v, hv⟩ := Option.ne_none_iff_exists'.mp hsrc
  obtain ⟨a, ha⟩ := Option.ne_none_iff_exists'.mp hdst
  cases (exec_mov_of_operandValue hv ha).symm.trans h
  exact ⟨a, v, ha, rfl⟩

/-! ### What a resolution and a store leave alone -/

@[simp] theorem State.run_afterStore (s : State) (o : Operand) (a v : Word) : (s.afterStore o a v).run = s.run := by
  unfold State.afterStore
  split <;> rfl

@[simp] theorem State.ia_afterStore (s : State) (o : Operand) (a v : Word) : (s.afterStore o a v).ia = s.ia := by
  unfold State.afterStore
  split <;> rfl

theorem State.x_afterStore_ne (s : State) {r : Reg} (h : ¬(o.mode = .register ∧ o.reg = r)) :
    (s.afterStore o a v).x r = s.x r := by
  unfold State.afterStore
  split
  next hm => exact RegFile.get_set_ne _ _ fun hr => h ⟨hm, hr.symm⟩
  next => rfl

theorem State.mem_afterStore_of_register (s : State) (h : o.mode = .register) : (s.afterStore o a v).mem = s.mem := by
  rw [State.afterStore, if_pos h]

theorem State.get_mem_afterStore_ne (s : State) (hm : o.mode ≠ .register) {k : Nat} (hk : k ≠ wordIndex a) :
    (s.afterStore o a v).mem.get k = s.mem.get k := by
  rw [State.afterStore, if_neg hm]
  exact Memory.get_put_ne _ _ hk

theorem State.afterStore_setFlags (s : State) (f : Flags) :
    (s.setFlags f).afterStore o a v = (s.afterStore o a v).setFlags f := by
  unfold State.afterStore
  split <;> rfl

/-- A resolution writes no register but the PC and the one its mode steps (41_operand_resolver.md R127). -/
theorem State.x_afterOperand_ne (s : State) {r : Reg} (hpc : r ≠ .r7) (hsteps : ¬o.steps r) :
    (s.afterOperand o).x r = s.x r := by
  obtain ⟨m, q⟩ := o
  cases m with
  | register | indirect => rfl
  | autoInc | autoIncIndirect | autoDec | autoDecIndirect =>
    exact RegFile.get_set_ne _ _ fun hr => hsteps ⟨by simp, hr.symm⟩
  | index | indexDeferred => exact RegFile.get_set_ne _ _ hpc

theorem State.operandAddr_of_storeAddr (ha : s.storeAddr o = some a) : s.operandAddr o = some a := by
  by_cases hm : o.mode = .register
  · simpa [State.storeAddr, State.operandAddr, hm] using ha
  · exact (State.operand_of_storeAddr hm ha).1

/-- What writing a destination leaves alone, from the state it is resolved in. -/
structure DestinationFrame (dst : Operand) (s t : State) : Prop where
  x : ∀ r, r ≠ .r7 → ¬(dst.mode = .register ∧ dst.reg = r) → ¬dst.steps r → t.x r = s.x r
  run : t.run = s.run
  ia : t.ia = s.ia
  inst : t.cnt.inst = s.cnt.inst
  br : t.cnt.br = s.cnt.br
  taken : t.cnt.taken = s.cnt.taken
  mem_of_register : dst.mode = .register → ∀ k, t.mem.get k = s.mem.get k
  mem_of_memory : dst.mode ≠ .register → ∀ a w, resolveAddr dst s = .ok a w →
    ∀ k, k ≠ wordIndex a → t.mem.get k = s.mem.get k

theorem destinationFrame_afterStore (ha : s.operandAddr dst = some a) (v : Word) (f : Flags) :
    DestinationFrame dst s (((s.afterOperand dst).afterStore dst a v).setFlags f) where
  x r hpc hreg hsteps := (State.x_afterStore_ne _ hreg).trans (s.x_afterOperand_ne hpc hsteps)
  run := State.run_afterStore _ _ _ _
  ia := State.ia_afterStore _ _ _ _
  inst := by rw [State.cnt_setFlags, State.cnt_afterStore]; rfl
  br := by rw [State.cnt_setFlags, State.cnt_afterStore]; rfl
  taken := by rw [State.cnt_setFlags, State.cnt_afterStore]; rfl
  mem_of_register hm k := congrArg (Memory.get · k) (State.mem_afterStore_of_register (s.afterOperand dst) hm)
  mem_of_memory hm b w hb k hk := by
    cases (resolveAddr_of_operandAddr ha).symm.trans hb
    exact State.get_mem_afterStore_ne (s.afterOperand dst) hm hk

/-- ASR and ASL, and ADD and SUB after their source. -/
theorem destinationFrame_of_resolve_updateOperand {alu : Word → AluResult}
    (h : (do
      let p ← resolve dst
      update (fun u => u.setFlags (alu p.value).flags)
      updateOperand p (alu p.value).r) s = .ok () t) : DestinationFrame dst s t := by
  obtain ⟨a, u, ha, hu, -⟩ | ⟨c, u, -, herr, -⟩ := resolve_cases dst s
  · cases (resolve_updateOperand_of_operandValue ha hu).symm.trans h
    rw [State.afterStore_setFlags]
    exact destinationFrame_afterStore ha _ _
  · cases (bind_error herr).symm.trans h

/-- MOV, ADD and SUB write their destination from the state their source's resolution leaves. -/
theorem destinationFrame_of_exec_next (hi : i = .mov src dst ∨ i = .add src dst ∨ i = .sub src dst)
    (h : exec i s = .next t) : DestinationFrame dst (s.afterOperand src) t := by
  obtain rfl | rfl | rfl := hi
  · obtain ⟨a, v, ha, rfl⟩ := exec_mov_next h
    exact destinationFrame_afterStore (State.operandAddr_of_storeAddr ha) _ _
  · obtain ⟨_, v, -, hdst⟩ := rest_of_resolve_bind_ok (runRule_eq_next.mp h)
    exact destinationFrame_of_resolve_updateOperand (alu := aluAdd v) hdst
  · obtain ⟨_, v, -, hdst⟩ := rest_of_resolve_bind_ok (runRule_eq_next.mp h)
    exact destinationFrame_of_resolve_updateOperand (alu := fun d => aluSub d v) hdst

end Move

/-- Settles O19: MOV resolves its source and puts the value; it stops where the source has no value, or where put_result
has no address to store to. -/
theorem movStoresTheSourceValue : Obligations.MovStoresTheSourceValue := by
  unfold Obligations.MovStoresTheSourceValue
  intro src dst s a v
  exact ⟨exec_mov_of_operandValue, exec_mov_fault⟩

/-- Settles O30: the source's resolution leaves all but registers and read counters alone, and the destination's frame
goes on from there. -/
theorem movAddSubFrame : Obligations.MovAddSubFrame := by
  unfold Obligations.MovAddSubFrame
  intro src dst s t i hi h
  have hsrc := readFrame_afterOperand s src
  have hdst := destinationFrame_of_exec_next hi h
  refine ⟨fun r hpc hreg hsrcSteps hdstSteps => ?registers, ?carry, hdst.run.trans hsrc.run, hdst.ia.trans hsrc.ia,
    hdst.inst.trans hsrc.inst, hdst.br.trans hsrc.br, hdst.taken.trans hsrc.taken, hdst.mem_of_register,
    fun hm p u a w hp ha => ?memory⟩
  case registers => exact (hdst.x r hpc hreg hdstSteps).trans (s.x_afterOperand_ne hpc hsrcSteps)
  case carry =>
    rintro rfl
    obtain ⟨a, v, -, rfl⟩ := exec_mov_next h
    rfl
  case memory =>
    obtain ⟨rfl, -⟩ := resolve_ok_entry hp
    exact hdst.mem_of_memory hm a w ha

end Sys2Proof.Machine

/-! ## The ALU, and how CMP, ADD and SUB end (44_arithmetic.md R150 to R157) -/

namespace Sys2Proof.Machine

/-! ### The flags of the ALU as overflow predicates -/

section Alu
variable (s d a b : Word)

theorem bit16_eq_true_iff_of_carry {n : Int} (h : 0 ≤ n) (hlt : n < 131072) : bit16 n = true ↔ 65536 ≤ n := by
  rw [bit16, decide_eq_true_iff]
  omega

theorem bit16_eq_true_iff_of_borrow {n : Int} (h : -65536 ≤ n) (hlt : n < 65536) : bit16 n = true ↔ n < 0 := by
  rw [bit16, decide_eq_true_iff]
  omega

theorem saddOverflow_eq_true_iff :
    s.saddOverflow d = true ↔ s.toInt + d.toInt < -32768 ∨ 32767 < s.toInt + d.toInt := by
  simp only [BitVec.saddOverflow, Bool.or_eq_true, decide_eq_true_iff]
  omega

theorem ssubOverflow_eq_true_iff :
    a.ssubOverflow b = true ↔ a.toInt - b.toInt < -32768 ∨ 32767 < a.toInt - b.toInt := by
  simp only [BitVec.ssubOverflow, Bool.or_eq_true, decide_eq_true_iff]
  omega

theorem aluAdd_n : (aluAdd s d).flags.n = (s + d).msb := congrArg sign (mask16_add s d)

theorem aluAdd_z : (aluAdd s d).flags.z = decide (s + d = 0) := congrArg (fun r => decide (r = 0)) (mask16_add s d)

/-- V of an addition: both addends have the same sign and the result's sign differs. -/
theorem aluAdd_v : (aluAdd s d).flags.v = s.saddOverflow d := by
  rw [BitVec.saddOverflow_eq, ← mask16_add]
  rfl

theorem aluAdd_c : (aluAdd s d).flags.c = true ↔ 65536 ≤ s.toNat + d.toNat := by
  have hs := s.isLt
  have hd := d.isLt
  have hcarry : (aluAdd s d).flags.c = true ↔ (65536 : Int) ≤ s.toNat + d.toNat :=
    bit16_eq_true_iff_of_carry (by omega) (by omega)
  rw [hcarry]
  omega

theorem aluSub_n : (aluSub a b).flags.n = (a - b).msb := congrArg sign (mask16_sub a b)

theorem aluSub_z : (aluSub a b).flags.z = decide (a - b = 0) := congrArg (fun r => decide (r = 0)) (mask16_sub a b)

/-- V of a subtraction: the operands have opposite signs and the result has the subtrahend's sign. -/
theorem aluSub_v : (aluSub a b).flags.v = a.ssubOverflow b := by
  have hsigns : (aluSub a b).flags.v = (a.msb != b.msb && (a - b).msb == b.msb) := by
    rw [← mask16_sub]
    rfl
  rw [hsigns, BitVec.ssubOverflow_eq]
  cases a.msb <;> cases b.msb <;> simp

theorem aluSub_c : (aluSub a b).flags.c = true ↔ a.toNat < b.toNat := by
  have ha := a.isLt
  have hb := b.isLt
  have hborrow : (aluSub a b).flags.c = true ↔ (a.toNat : Int) - b.toNat < 0 :=
    bit16_eq_true_iff_of_borrow (by omega) (by omega)
  rw [hborrow]
  omega

end Alu

section Arithmetic
variable {src dst : Operand} {s t : State} {a u v : Word}

/-! ### How CMP, ADD and SUB end -/

/-- A rule that begins with two resolutions stops where either operand has no value. -/
theorem runRule_resolve_resolve_fault (rest : Phrase → Phrase → Action Unit)
    (h : s.operandValue src = none ∨ (s.afterOperand src).operandValue dst = none) :
    ∃ f, runRule (do
      let p ← resolve src
      let q ← resolve dst
      rest p q) s = .fault f := by
  cases hv : s.operandValue src with
  | none => exact runRule_resolve_bind_fault _ hv
  | some v =>
    have hdst : (s.afterOperand src).operandValue dst = none := h.resolve_left (by simp [hv])
    obtain ⟨_, -, hsrc⟩ := exists_resolve_of_operandValue hv
    obtain ⟨a, u, -, hu, -⟩ | ⟨c, t, -, herr, -⟩ := resolve_cases dst (s.afterOperand src)
    · cases hdst.symm.trans hu
    · exact ⟨_, runRule_error ((bind_ok hsrc).trans (bind_error herr))⟩

theorem exec_cmp_fault (h : s.operandValue src = none ∨ (s.afterOperand src).operandValue dst = none) :
    ∃ f, exec (.cmp src dst) s = .fault f :=
  runRule_resolve_resolve_fault _ h

theorem exec_add_fault (h : s.operandValue src = none ∨ (s.afterOperand src).operandValue dst = none) :
    ∃ f, exec (.add src dst) s = .fault f :=
  runRule_resolve_resolve_fault _ h

theorem exec_sub_fault (h : s.operandValue src = none ∨ (s.afterOperand src).operandValue dst = none) :
    ∃ f, exec (.sub src dst) s = .fault f :=
  runRule_resolve_resolve_fault _ h

theorem exec_sub_of_operandValue (hv : s.operandValue src = some v)
    (ha : (s.afterOperand src).operandAddr dst = some a) (hu : (s.afterOperand src).operandValue dst = some u) :
    exec (.sub src dst) s = .next
      ((((s.afterOperand src).afterOperand dst).setFlags (aluSub u v).flags).afterStore dst a (u - v)) := by
  obtain ⟨_, -, hsrc⟩ := exists_resolve_of_operandValue hv
  apply runRule_ok
  rw [subRule, bind_ok hsrc, resolve_updateOperand_of_operandValue (alu := fun d => aluSub d v) ha hu, aluSub_r]

/-- Completed, CMP has resolved its two operands and set the flags. -/
theorem exec_cmp_next (h : exec (.cmp src dst) s = .next t) :
    ∃ f, t = ((s.afterOperand src).afterOperand dst).setFlags f := by
  obtain ⟨_, v, -, hdst⟩ := rest_of_resolve_bind_ok (runRule_eq_next.mp h)
  obtain ⟨_, u, -, hflags⟩ := rest_of_resolve_bind_ok hdst
  cases hflags
  exact ⟨_, rfl⟩

end Arithmetic

/-! ### What the ALU computes, and what CMP, ADD and SUB do -/

/-- Settles O15: V is the library's signed overflow of an addition, and C is bit 16 of a sum below 2 * 65536. -/
theorem addFlagsAreSignedOverflowAndCarry : Obligations.AddFlagsAreSignedOverflowAndCarry := by
  unfold Obligations.AddFlagsAreSignedOverflowAndCarry
  intro s d
  refine ⟨aluAdd_r s d, aluAdd_n s d, ?zero, ?overflow, aluAdd_c s d⟩
  case zero => rw [aluAdd_z, decide_eq_true_iff]
  case overflow => rw [aluAdd_v, saddOverflow_eq_true_iff]

/-- Settles O16: V is the library's signed overflow of a subtraction, and C is bit 16 of a difference that is negative
exactly when it borrows. -/
theorem subFlagsAreSignedOverflowAndBorrow : Obligations.SubFlagsAreSignedOverflowAndBorrow := by
  unfold Obligations.SubFlagsAreSignedOverflowAndBorrow
  intro a b
  refine ⟨aluSub_r a b, aluSub_n a b, ?zero, ?overflow, aluSub_c a b⟩
  case zero => rw [aluSub_z, decide_eq_true_iff, sub_eq_zero]
  case overflow => rw [aluSub_v, ssubOverflow_eq_true_iff]

/-- Settles O20: CMP resolves both operands and sets the flags; it stops where one of them has no value. -/
theorem cmpSetsTheFlagsOfTheDifference : Obligations.CmpSetsTheFlagsOfTheDifference := by
  unfold Obligations.CmpSetsTheFlagsOfTheDifference
  intro src dst s u v
  exact ⟨exec_cmp_of_operandValue, exec_cmp_fault⟩

/-- Settles O21: ADD resolves both operands and commits through the second one's phrase; it stops where one of them has
no value. -/
theorem addStoresTheSum : Obligations.AddStoresTheSum := by
  unfold Obligations.AddStoresTheSum
  intro src dst s a u v
  exact ⟨exec_add_of_operandValue, exec_add_fault⟩

/-- Settles O22: as ADD, with the destination as the minuend. -/
theorem subStoresTheDifference : Obligations.SubStoresTheDifference := by
  unfold Obligations.SubStoresTheDifference
  intro src dst s a u v
  exact ⟨exec_sub_of_operandValue, exec_sub_fault⟩

/-- Settles O32: CMP is two resolutions and the flags, and a resolution writes only registers and read counters. -/
theorem cmpFrame : Obligations.CmpFrame := by
  unfold Obligations.CmpFrame
  intro src dst s t h
  obtain ⟨f, rfl⟩ := exec_cmp_next h
  have hframe := (readFrame_afterOperand s src).trans (readFrame_afterOperand (s.afterOperand src) dst)
  refine ⟨fun r hpc hsrc hdst => ?registers, hframe.run, hframe.ia, hframe.inst, hframe.dwrite, hframe.br,
    hframe.taken, fun k => congrArg (Memory.get · k) hframe.mem⟩
  case registers =>
    calc (((s.afterOperand src).afterOperand dst).setFlags f).x r
      _ = ((s.afterOperand src).afterOperand dst).x r := State.x_setFlags _ _ _
      _ = (s.afterOperand src).x r := State.x_afterOperand_ne _ hpc hdst
      _ = s.x r := State.x_afterOperand_ne _ hpc hsrc

end Sys2Proof.Machine

/-! ## The next states of SOB, BR, BNE and BEQ (45_branches.md R170 to R177) -/

namespace Sys2Proof.Machine

/-! ### The words a branch computes -/

theorem mask16_pred (v : Word) : mask16 ((v.toNat : Int) - 1) = v - 1 := mask16_sub v 1

/-- SOB's displacement is the negative of an unsigned offset, so its branch subtracts. -/
theorem add_ofInt_two_mul_neg (w : Word) (n : Nat) :
    w + BitVec.ofInt 16 (2 * -(n : Int)) = w - BitVec.ofNat 16 (2 * n) := by
  have hneg : (2 * -(n : Int)) = -((2 * n : Nat) : Int) := by omega
  rw [hneg, BitVec.ofInt_neg, BitVec.ofInt_natCast, BitVec.sub_eq_add_neg]

/-! ### A branch that is taken and one that is not -/

section Branches
variable {rule : Action Unit} {p : Prop} [Decidable p] {offset : Int} {s u : State}

/-- The counters and the PC are different fields, so it does not matter that the branch is counted before the PC moves
and the taken branch after it. -/
theorem branchTo_countBr (offset : Int) (u : State) :
    branchTo offset u.countBr =
      .ok () (u.setX .r7 (u.pc + BitVec.ofInt 16 (2 * offset))).countBr.countTaken := by
  rw [← mask16_add_int]
  exact branchTo_apply offset u.countBr

theorem runRule_of_branch_taken (hrule : rule s = (if p then branchTo offset else pure ()) u.countBr) (hp : p) :
    runRule rule s = .next (u.setX .r7 (u.pc + BitVec.ofInt 16 (2 * offset))).countBr.countTaken := by
  rw [if_pos hp] at hrule
  exact runRule_ok (hrule.trans (branchTo_countBr offset u))

theorem runRule_of_branch_not_taken (hrule : rule s = (if p then branchTo offset else pure ()) u.countBr)
    (hp : ¬p) : runRule rule s = .next u.countBr := by
  rw [if_neg hp] at hrule
  exact runRule_ok (hrule.trans (pure_apply _ _))

end Branches

/-! ### The rules up to their branch -/

/-- SOB tests the register it has just decremented. -/
theorem sobRule_apply (r : Reg) (n : Nat) (s : State) :
    sobRule r n s =
      (if s.x r - 1 ≠ 0 then branchTo (-(n : Int)) else pure ()) (s.setX r (s.x r - 1)).countBr := by
  have hread : (s.setX r (s.x r - 1)).countBr.x r = s.x r - 1 := s.x_setX_self r _
  rw [sobRule, bind_ok (update_apply _ _), bind_ok (update_apply _ _), bind_ok (readX_apply _ _), mask16_pred, hread]

theorem bneRule_apply (offset : Int) (s : State) :
    bneRule offset s = (if s.flags.z = false then branchTo offset else pure ()) s.countBr := rfl

theorem beqRule_apply (offset : Int) (s : State) :
    beqRule offset s = (if s.flags.z = true then branchTo offset else pure ()) s.countBr := rfl

/-! ### The obligations -/

/-- Settles O25: the branch is decided by the decremented register, and starts from the PC as the decrement left it. -/
theorem sobDecrementsAndBranchesBack : Obligations.SobDecrementsAndBranchesBack := by
  unfold Obligations.SobDecrementsAndBranchesBack
  intro r n s
  have hrule := sobRule_apply r n s
  refine ⟨fun hzero => ?becomesZero, fun hne => ?branches⟩
  case becomesZero =>
    rw [exec_sob, runRule_of_branch_not_taken hrule (not_not.mpr hzero), hzero]
  case branches =>
    rw [exec_sob, runRule_of_branch_taken hrule hne, add_ofInt_two_mul_neg]

/-- Settles O26: BR is its count and an unconditional branch. -/
theorem brMovesThePc : Obligations.BrMovesThePc := by
  unfold Obligations.BrMovesThePc
  intro offset s
  exact runRule_ok ((bind_ok (update_apply _ _)).trans (branchTo_countBr offset s))

/-- Settles O27: BNE branches on Z being 0, and Z is 0 or 1. -/
theorem bneBranchesWhenZIsClear : Obligations.BneBranchesWhenZIsClear := by
  unfold Obligations.BneBranchesWhenZIsClear
  intro offset s
  have hrule := bneRule_apply offset s
  exact ⟨runRule_of_branch_taken hrule, fun hset => runRule_of_branch_not_taken hrule (by simp [hset])⟩

/-- Settles O28: BEQ branches on Z being 1, and Z is 0 or 1. -/
theorem beqBranchesWhenZIsSet : Obligations.BeqBranchesWhenZIsSet := by
  unfold Obligations.BeqBranchesWhenZIsSet
  intro offset s
  have hrule := beqRule_apply offset s
  exact ⟨runRule_of_branch_taken hrule, fun hclear => runRule_of_branch_not_taken hrule (by simp [hclear])⟩

end Sys2Proof.Machine

/-! ## ASR and ASL (46_shifts.md R190 to R192) -/

namespace Sys2Proof.Machine

/-! ### The ALU's shifts by one bit -/

section Shifts
variable (v : Word)

theorem add_self_eq_shiftLeft_one : v + v = v <<< 1 := by
  have htwo : BitVec.twoPow 16 1 = 2#16 := rfl
  rw [BitVec.shiftLeft_eq_mul_twoPow, htwo, BitVec.mul_comm, BitVec.two_mul]

theorem sign_shiftLeft_one : sign (v <<< 1) = v.getLsbD 14 := by
  simp [sign]

theorem sign_sshiftRight_one : sign (v.sshiftRight 1) = v.msb :=
  BitVec.msb_sshiftRight (x := v) (n := 1)

theorem aluAsr_flags :
    (aluAsr v).flags = ⟨v.msb, decide (v.sshiftRight 1 = 0), v.msb ^^ v.getLsbD 0, v.getLsbD 0⟩ := by
  have hflags : (aluAsr v).flags = shiftFlags (aluAsr v).r (v.getLsbD 0) := rfl
  rw [hflags, aluAsr_r, shiftFlags, sign_sshiftRight_one]

theorem aluAsl_flags :
    (aluAsl v).flags = ⟨v.getLsbD 14, decide (v <<< 1 = 0), v.getLsbD 14 ^^ v.getLsbD 15, v.getLsbD 15⟩ := by
  have hflags : (aluAsl v).flags = shiftFlags (aluAsl v).r (v.getLsbD 15) := rfl
  rw [hflags, aluAsl_r, add_self_eq_shiftLeft_one, shiftFlags, sign_shiftLeft_one]

theorem aluAsr_toInt : (aluAsr v).r.toInt = v.toInt / 2 := by
  rw [aluAsr_r, BitVec.toInt_sshiftRight, Int.shiftRight_eq_div_pow]
  rfl

theorem aluAsr_c : (aluAsr v).flags.c = true ↔ v.toNat % 2 = 1 := by
  rw [aluAsr_flags, BitVec.getLsbD, Nat.testBit_zero, decide_eq_true_iff]

theorem aluAsl_v_iff_bits_differ : (aluAsl v).flags.v = true ↔ v.getLsbD 15 ≠ v.getLsbD 14 := by
  rw [aluAsl_flags, Bool.xor_iff_ne, ne_comm]

/-- ASL adds the operand to itself, so its two equal signs overflow where the sum's sign is another. -/
theorem aluAsl_v : (aluAsl v).flags.v = v.saddOverflow v := by
  have hsigns : (aluAsl v).flags.v = ((v + v).msb ^^ v.msb) := by
    rw [← aluAsl_r]
    rfl
  rw [hsigns, BitVec.saddOverflow_eq, beq_self_eq_true, Bool.true_and]
  rfl

theorem aluAsl_v_iff_out_of_range :
    (aluAsl v).flags.v = true ↔ 2 * v.toInt < -32768 ∨ 32767 < 2 * v.toInt := by
  rw [aluAsl_v, saddOverflow_eq_true_iff, two_mul]

theorem aluAsl_toInt (h : (aluAsl v).flags.v = false) : (aluAsl v).r.toInt = 2 * v.toInt := by
  have hfits : ¬v.saddOverflow v = true := by rw [← aluAsl_v, h]; exact Bool.false_ne_true
  rw [aluAsl_r, BitVec.toInt_add_of_not_saddOverflow hfits, two_mul]

theorem aluAsl_c : (aluAsl v).flags.c = true ↔ 65536 ≤ 2 * v.toNat :=
  BitVec.msb_eq_true_iff_two_mul_ge (x := v)

end Shifts

/-! ### How ASR and ASL end, and what they leave unchanged -/

section Rules
variable {dst : Operand} {s t : State} {a v : Word} {i : Instr}

theorem exec_asr_of_operandValue (ha : s.operandAddr dst = some a) (hv : s.operandValue dst = some v) :
    exec (.asr dst) s = .next (((s.afterOperand dst).setFlags (aluAsr v).flags).afterStore dst a (aluAsr v).r) :=
  runRule_ok (resolve_updateOperand_of_operandValue ha hv)

theorem exec_asl_of_operandValue (ha : s.operandAddr dst = some a) (hv : s.operandValue dst = some v) :
    exec (.asl dst) s = .next (((s.afterOperand dst).setFlags (aluAsl v).flags).afterStore dst a (aluAsl v).r) :=
  runRule_ok (resolve_updateOperand_of_operandValue ha hv)

theorem destinationFrame_of_shift_next (hi : i = .asr dst ∨ i = .asl dst) (h : exec i s = .next t) :
    DestinationFrame dst s t := by
  obtain rfl | rfl := hi
  · exact destinationFrame_of_resolve_updateOperand (alu := aluAsr) (runRule_eq_next.mp h)
  · exact destinationFrame_of_resolve_updateOperand (alu := aluAsl) (runRule_eq_next.mp h)

end Rules

/-! ### The obligations -/

/-- Settles O17: ASR is the library's arithmetic shift, and ASL is the addition of the operand to itself. -/
theorem shiftsHalveAndDoubleTheSignedValue : Obligations.ShiftsHalveAndDoubleTheSignedValue := by
  unfold Obligations.ShiftsHalveAndDoubleTheSignedValue
  intro v
  exact ⟨aluAsr_toInt v, congrArg Flags.n (aluAsr_flags v), aluAsr_c v, aluAsl_v_iff_bits_differ v,
    aluAsl_v_iff_out_of_range v, aluAsl_toInt v, aluAsl_c v⟩

/-- Settles O23: ASR resolves its operand once and commits through its phrase; it stops where the operand has no
value. -/
theorem asrShiftsRightKeepingTheSign : Obligations.AsrShiftsRightKeepingTheSign := by
  unfold Obligations.AsrShiftsRightKeepingTheSign
  intro dst s a v
  refine ⟨fun ha hv => ?completes, fun hnone => runRule_resolve_bind_fault _ hnone⟩
  case completes => rw [exec_asr_of_operandValue ha hv, aluAsr_flags, aluAsr_r]

/-- Settles O24: as ASR, with the sum of the operand with itself as the shift left. -/
theorem aslShiftsLeft : Obligations.AslShiftsLeft := by
  unfold Obligations.AslShiftsLeft
  intro dst s a v
  refine ⟨fun ha hv => ?completes, fun hnone => runRule_resolve_bind_fault _ hnone⟩
  case completes => rw [exec_asl_of_operandValue ha hv, aluAsl_flags, aluAsl_r, add_self_eq_shiftLeft_one]

/-- Settles O31: a shift writes its one operand, from the state the operand is resolved in. -/
theorem shiftFrame : Obligations.ShiftFrame := by
  unfold Obligations.ShiftFrame
  intro dst s t i hi h
  obtain ⟨hx, hrun, hia, hinst, hbr, htaken, hregister, hmemory⟩ := destinationFrame_of_shift_next hi h
  exact ⟨hx, hrun, hia, hinst, hbr, htaken, hregister, hmemory⟩

end Sys2Proof.Machine

/-! ## Words that decode as no instruction (47_decode_error.md R200) -/

namespace Sys2Proof.Machine

/-- A word that decodes as no instruction leaves the state its fetch left, back in FETCHING. -/
theorem step_of_decode_error {s : State} {w : Word} {e : DecodeError} (hr : s.run = .fetching)
    (hw : s.wordAt s.pc = some w) (hd : decode w = .error e) : step s = .next (s.fetched.setRun .fetching) := by
  obtain ⟨c, hnone, -, -⟩ | ⟨v, i, hv, hi, -⟩ | ⟨v, d, -, -, hskip⟩ := step_cases hr
  · cases hnone.symm.trans hw
  · cases hv.symm.trans hw
    cases hi.symm.trans hd
  · exact hskip

/-- The fetch of a step, ended in FETCHING again: the PC is past the word, one fetch is counted and `ia` holds the
word's address. -/
theorem State.fetched_setRun_fetching {s : State} (hr : s.run = .fetching) :
    s.fetched.setRun .fetching =
      { s with regs := s.regs.set .r7 (s.pc + 2)
               cnt := { s.cnt with ifetch := s.cnt.ifetch + 1 }
               ia := s.pc } := by
  rw [← hr]
  rfl

/-- Settles O35: the step is its fetch alone, and its trace event reads the flags, which the fetch left as they were. -/
theorem decodeErrorIsSkipped : Obligations.DecodeErrorIsSkipped := by
  unfold Obligations.DecodeErrorIsSkipped
  intro s w hr hw hd
  have hstep := step_of_decode_error hr hw hd
  have hevent : traceEvent s = some ⟨s.pc, w, "DECODE_ERROR", [], (s.fetched.setRun .fetching).cc⟩ :=
    traceEvent_of_decodeError hstep hw hd
  exact ⟨hstep.trans (congrArg _ (State.fetched_setRun_fetching hr)), hevent⟩

end Sys2Proof.Machine

/-! ## What no step reads: N, V, C and the counters (10_state.md R28, R30)

Two states are run side by side that agree in all but flags related by `F` and counters related by `C`. For N, V and C
these are agreement in Z and equality; for the counters, equality and no condition at all. -/

namespace Sys2Proof.Machine

/-- The states agree but for their flags and counters, and these are related. -/
structure Alike (F : Flags → Flags → Prop) (C : Counters → Counters → Prop) (s t : State) : Prop where
  regs : t.regs = s.regs
  run : t.run = s.run
  mem : t.mem = s.mem
  ia : t.ia = s.ia
  flags : F s.flags t.flags
  cnt : C s.cnt t.cnt

/-- Related flags and counters look the same to a step, and what a step makes of them is related again: it reads Z, sets
all flags alike or all but MOV's C, and counts without looking. -/
structure Unread (F : Flags → Flags → Prop) (C : Counters → Counters → Prop) : Prop where
  z : ∀ {f g}, F f g → g.z = f.z
  set : ∀ f, F f f
  mov : ∀ {f g} v, F f g → F (movFlags v f) (movFlags v g)
  count : ∀ {c d} (k : Counters → Counters), C c d → C (k c) (k d)

/-- Both runs of an action end with one value or stop with one cause, in states that are alike. -/
inductive EndsAlike (F : Flags → Flags → Prop) (C : Counters → Counters → Prop) {α : Type} :
    EStateM.Result FatalCause State α → EStateM.Result FatalCause State α → Prop
  | ok (a : α) {s t : State} (h : Alike F C s t) : EndsAlike F C (.ok a s) (.ok a t)
  | error (c : FatalCause) {s t : State} (h : Alike F C s t) : EndsAlike F C (.error c s) (.error c t)

/-- The action ends alike from states that are alike. -/
def Uniform (F : Flags → Flags → Prop) (C : Counters → Counters → Prop) {α : Type} (p : Action α) : Prop :=
  ∀ s t, Alike F C s t → EndsAlike F C (p s) (p t)

/-- Both steps complete, stop or are refused, in states that are alike. -/
inductive OutcomesAlike (F : Flags → Flags → Prop) (C : Counters → Counters → Prop) :
    Host.Outcome State Fault Refusal → Host.Outcome State Fault Refusal → Prop
  | next {s t : State} (h : Alike F C s t) : OutcomesAlike F C (.next s) (.next t)
  | fault {e f : Fault} (h : Alike F C e.left f.left) : OutcomesAlike F C (.fault e) (.fault f)
  | refused (r : Refusal) : OutcomesAlike F C (.refused r) (.refused r)

section Alike
variable {F : Flags → Flags → Prop} {C : Counters → Counters → Prop} {α β : Type} {s t : State}

/-! ### Alike states -/

theorem Alike.x (h : Alike F C s t) (r : Reg) : t.x r = s.x r := by
  rw [State.x, h.regs, State.x]

theorem Alike.setX (h : Alike F C s t) (r : Reg) (v : Word) : Alike F C (s.setX r v) (t.setX r v) :=
  { h with regs := congrArg (·.set r v) h.regs }

theorem Alike.setRun (h : Alike F C s t) (q : RunState) : Alike F C (s.setRun q) (t.setRun q) :=
  { h with run := rfl }

theorem Alike.setMem (h : Alike F C s t) (m : Memory) : Alike F C (s.setMem m) (t.setMem m) :=
  { h with mem := rfl }

theorem Alike.setIa (h : Alike F C s t) (a : Word) : Alike F C (s.setIa a) (t.setIa a) :=
  { h with ia := rfl }

theorem Alike.setFlags (h : Alike F C s t) {f g : Flags} (hf : F f g) : Alike F C (s.setFlags f) (t.setFlags g) :=
  { h with flags := hf }

theorem Alike.resumeFetching (h : Alike F C s t) : Alike F C (resumeFetching s) (resumeFetching t) := by
  rw [resumeFetching_eq_ite, resumeFetching_eq_ite, h.run]
  exact h.setRun _

theorem Alike.eq (h : Alike F C s t) : t = { s with flags := t.flags, cnt := t.cnt } := by
  obtain ⟨hregs, hrun, hmem, hia, -, -⟩ := h
  rw [← hregs, ← hrun, ← hmem, ← hia]

/-! ### Outcomes that are alike -/

theorem OutcomesAlike.of_next {q : Host.Outcome State Fault Refusal} (h : OutcomesAlike F C (.next s) q) :
    ∃ u, q = .next u ∧ Alike F C s u := by
  cases h with
  | next h => exact ⟨_, rfl, h⟩

theorem OutcomesAlike.of_fault {e : Fault} {q : Host.Outcome State Fault Refusal}
    (h : OutcomesAlike F C (.fault e) q) : ∃ f, q = .fault f ∧ Alike F C e.left f.left := by
  cases h with
  | fault h => exact ⟨_, rfl, h⟩

theorem OutcomesAlike.of_refused {r : Refusal} {q : Host.Outcome State Fault Refusal}
    (h : OutcomesAlike F C (.refused r) q) : q = .refused r := by
  cases h
  rfl

/-! ### Composition -/

theorem Uniform.bind {p : Action α} {rest : α → Action β} (hp : Uniform F C p) (hrest : ∀ a, Uniform F C (rest a)) :
    Uniform F C (p >>= rest) := by
  intro s t h
  have hends := hp s t h
  rw [bind_apply, bind_apply]
  generalize p s = x, p t = y at hends
  cases hends with
  | ok a h => exact hrest a _ _ h
  | error c h => exact .error c h

theorem Uniform.pure (a : α) : Uniform F C (pure a) := fun _ _ h => .ok a h

theorem Uniform.error (c : FatalCause) : Uniform F C fun s => (.error c s : EStateM.Result FatalCause State α) :=
  fun _ _ h => .error c h

theorem Uniform.update {g : State → State} (hg : ∀ s t, Alike F C s t → Alike F C (g s) (g t)) :
    Uniform F C (update g) := fun s t h => .ok () (hg s t h)

theorem Uniform.readX (r : Reg) : Uniform F C (readX r) := by
  intro s t h
  rw [readX_apply, readX_apply, h.x]
  exact .ok _ h

/-- A register written with a function of its own content: an autoincrement, SOB, a branch. -/
theorem Uniform.stepX (r : Reg) (k : Word → Word) : Uniform F C (Machine.update fun s => s.setX r (k (s.x r))) :=
  .update fun s t h => by
    rw [h.x]
    exact h.setX r _

theorem Uniform.postIncrement (o : Operand) : Uniform F C (postIncrement o) := by
  obtain ⟨m, r⟩ := o
  cases m with
  | autoInc | autoIncIndirect => exact .stepX r (· + 2)
  | _ => exact .pure ()

theorem Alike.raiseFatal (h : Alike F C s t) (c : FatalCause) :
    OutcomesAlike F C (raiseFatal c s) (raiseFatal c t) := by
  refine .fault ?_
  rw [FatalCause.left_fault, FatalCause.left_fault, h.ia]
  exact h.setRun _

theorem Uniform.runRule {rule : Action Unit} (hrule : Uniform F C rule) (h : Alike F C s t) :
    OutcomesAlike F C (runRule rule s) (runRule rule t) := by
  have hends := hrule s t h
  unfold Machine.runRule
  generalize rule s = x, rule t = y at hends
  cases hends with
  | ok a h => exact .next h
  | error c h => exact h.raiseFatal c

/-! ### The memory port -/

theorem Uniform.memRead (kind : AccessKind) (a : Word) : Uniform F C (memRead kind a) := by
  intro s t h
  rw [memRead_apply, memRead_apply, h.mem]
  split
  · exact .error _ h
  · exact .ok _ h

theorem Uniform.memWrite (kind : AccessKind) (a v : Word) : Uniform F C (memWrite kind a v) := by
  intro s t h
  rw [memWrite_apply, memWrite_apply, h.mem]
  split
  · exact .error _ h
  · exact .ok _ (h.setMem _)

theorem Uniform.useValue (a : Word) (content : Option Word) : Uniform F C (useValue a content) := by
  cases content with
  | none => exact .error _
  | some v => exact .pure v

end Alike

section Unread
variable {F : Flags → Flags → Prop} {C : Counters → Counters → Prop} (hu : Unread F C)
include hu

theorem Unread.alike_count (k : Counters → Counters) {s t : State} (h : Alike F C s t) :
    Alike F C { s with cnt := k s.cnt } { t with cnt := k t.cnt } :=
  { h with cnt := hu.count k h.cnt }

theorem Unread.uniform_count (k : Counters → Counters) : Uniform F C (update fun s => { s with cnt := k s.cnt }) :=
  .update fun _ _ h => hu.alike_count k h

theorem Unread.uniform_readZ : Uniform F C readZ := by
  intro s t h
  rw [readZ_apply, readZ_apply, hu.z h.flags]
  exact .ok _ h

theorem Unread.uniform_setFlags (f : Flags) : Uniform F C (update fun s => s.setFlags f) :=
  .update fun _ _ h => h.setFlags (hu.set f)

theorem Unread.uniform_fetchWord (kind : AccessKind) : Uniform F C (fetchWord kind) :=
  .bind (.readX .r7) fun pc => .bind (.memRead kind pc) fun content => .bind (.useValue pc content) fun w =>
    .bind (.update fun _ _ h => h.setX .r7 _) fun _ =>
      .bind (hu.uniform_count fun c => { c with ifetch := c.ifetch + 1 }) fun _ => .pure w

theorem Unread.uniform_dataRead (kind : AccessKind) (a : Word) : Uniform F C (dataRead kind a) :=
  .bind (.memRead kind a) fun content => .bind (.useValue a content) fun v =>
    .bind (hu.uniform_count fun c => { c with dread := c.dread + 1 }) fun _ => .pure v

theorem Unread.uniform_dataReadDiscarded (a : Word) : Uniform F C (dataReadDiscarded a) :=
  .bind (.memRead .dataRead a) fun _ => hu.uniform_count fun c => { c with dread := c.dread + 1 }

theorem Unread.uniform_dataWrite (a v : Word) : Uniform F C (dataWrite a v) :=
  .bind (.memWrite .dataWrite a v) fun _ => hu.uniform_count fun c => { c with dwrite := c.dwrite + 1 }

/-! ### The operand resolver -/

theorem Unread.uniform_resolveAddr (o : Operand) : Uniform F C (resolveAddr o) := by
  obtain ⟨m, r⟩ := o
  cases m with
  | register => exact .pure 0
  | indirect | autoInc => exact .readX r
  | autoIncIndirect => exact .bind (.readX r) fun _ => hu.uniform_dataRead _ _
  | autoDec => exact .bind (.stepX r (· - 2)) fun _ => .readX r
  | autoDecIndirect => exact .bind (.stepX r (· - 2)) fun _ => .bind (.readX r) fun _ => hu.uniform_dataRead _ _
  | index => exact .bind (hu.uniform_fetchWord _) fun _ => .bind (.readX r) fun _ => .pure _
  | indexDeferred =>
    exact .bind (hu.uniform_fetchWord _) fun _ => .bind (.readX r) fun _ => hu.uniform_dataRead _ _

theorem Unread.uniform_readValue (o : Operand) (a : Word) : Uniform F C (readValue o a) := by
  by_cases hm : o.mode = .register
  · rw [readValue, hm]
    exact .readX o.reg
  · rw [readValue_of_ne hm]
    exact hu.uniform_dataRead _ _

theorem Unread.uniform_discardValue (o : Operand) (a : Word) : Uniform F C (discardValue o a) := by
  by_cases hm : o.mode = .register
  · rw [discardValue, hm]
    exact .pure ()
  · rw [discardValue_of_ne hm]
    exact hu.uniform_dataReadDiscarded _

theorem Unread.uniform_resolve (o : Operand) : Uniform F C (resolve o) :=
  .bind (hu.uniform_resolveAddr o) fun a => .bind (hu.uniform_readValue o a) fun _ =>
    .bind (.postIncrement o) fun _ => .pure _

theorem Unread.uniform_commit (q : Target) (v : Word) : Uniform F C (commit q v) := by
  by_cases hm : q.mode = .register
  · rw [commit, hm]
    exact .update fun _ _ h => h.setX q.reg v
  · rw [commit_of_ne hm]
    exact hu.uniform_dataWrite _ _

theorem Unread.uniform_putResult (o : Operand) (v : Word) : Uniform F C (putResult o v) :=
  have htarget : Uniform F C (resolveTarget o) :=
    .bind (hu.uniform_resolveAddr o) fun a => .bind (hu.uniform_discardValue o a) fun _ =>
      .bind (.postIncrement o) fun _ => .pure _
  htarget.bind fun q => hu.uniform_commit q v

/-! ### The rules -/

/-- ASR and ASL, and ADD and SUB after their source. -/
theorem Unread.uniform_resolve_updateOperand (o : Operand) (alu : Word → AluResult) :
    Uniform F C (do
      let p ← resolve o
      update (fun t => t.setFlags (alu p.value).flags)
      updateOperand p (alu p.value).r) :=
  (hu.uniform_resolve o).bind fun p => (hu.uniform_setFlags _).bind fun _ => hu.uniform_commit p.toTarget _

theorem Unread.uniform_movRule (src dst : Operand) : Uniform F C (movRule src dst) :=
  (hu.uniform_resolve src).bind fun p => (hu.uniform_putResult dst p.value).bind fun _ =>
    .update fun _ _ h => h.setFlags (hu.mov p.value h.flags)

theorem Unread.uniform_countBr : Uniform F C (update State.countBr) :=
  hu.uniform_count fun c => { c with br := c.br + 1 }

theorem Unread.uniform_branchTo (offset : Int) : Uniform F C (branchTo offset) :=
  .bind (.stepX .r7 fun pc => mask16 ((pc.toNat : Int) + 2 * offset)) fun _ =>
    hu.uniform_count fun c => { c with taken := c.taken + 1 }

theorem Unread.uniform_branchOrSkip (p : Prop) [Decidable p] (offset : Int) :
    Uniform F C (if p then branchTo offset else pure ()) := by
  split
  · exact hu.uniform_branchTo offset
  · exact .pure ()

/-! ### The instruction and the step -/

theorem Unread.exec_alike (i : Instr) {s t : State} (h : Alike F C s t) :
    OutcomesAlike F C (exec i s) (exec i t) := by
  cases i with
  | halt => exact Uniform.runRule (.update fun _ _ h => h.setRun .halted) h
  | mov src dst => exact (hu.uniform_movRule src dst).runRule h
  | cmp src dst =>
    exact Uniform.runRule ((hu.uniform_resolve src).bind fun _ => (hu.uniform_resolve dst).bind fun _ =>
      hu.uniform_setFlags _) h
  | add src dst =>
    exact Uniform.runRule ((hu.uniform_resolve src).bind fun p =>
      hu.uniform_resolve_updateOperand dst (aluAdd p.value)) h
  | sub src dst =>
    exact Uniform.runRule ((hu.uniform_resolve src).bind fun p =>
      hu.uniform_resolve_updateOperand dst fun d => aluSub d p.value) h
  | sob r n =>
    exact Uniform.runRule (.bind (.stepX r fun v => mask16 ((v.toNat : Int) - 1)) fun _ =>
      hu.uniform_countBr.bind fun _ => .bind (.readX r) fun _ => hu.uniform_branchOrSkip _ _) h
  | br offset => exact Uniform.runRule (hu.uniform_countBr.bind fun _ => hu.uniform_branchTo offset) h
  | bne offset | beq offset =>
    exact Uniform.runRule (hu.uniform_countBr.bind fun _ => hu.uniform_readZ.bind fun _ =>
      hu.uniform_branchOrSkip _ offset) h
  | asr dst => exact (hu.uniform_resolve_updateOperand dst aluAsr).runRule h
  | asl dst => exact (hu.uniform_resolve_updateOperand dst aluAsl).runRule h

theorem Unread.uniform_beginStep : Uniform F C beginStep := by
  refine .bind (.update fun s t h => ?_) fun _ => (hu.uniform_fetchWord _).bind fun w => ?_
  · rw [State.pc_eq, State.pc_eq, h.x]
    exact h.setIa _
  · split
    · exact .bind (.update fun _ _ h => h.setRun .executing) fun _ => .pure w
    · exact .error _

theorem Unread.endInstruction_alike {o q : Host.Outcome State Fault Refusal} (h : OutcomesAlike F C o q) :
    OutcomesAlike F C (endInstruction o) (endInstruction q) := by
  cases h with
  | next h => exact .next (hu.alike_count (fun c => { c with inst := c.inst + 1 }) h).resumeFetching
  | fault h => exact .fault h
  | refused r => exact .refused r

/-- A step from states that are alike ends alike. -/
theorem Unread.step_alike {s t : State} (h : Alike F C s t) : OutcomesAlike F C (step s) (step t) := by
  by_cases hr : s.run = .fetching
  · have hends := hu.uniform_beginStep s t h
    unfold step
    rw [h.run, hr]
    generalize beginStep s = x, beginStep t = y at hends
    cases hends with
    | error c h => exact h.raiseFatal c
    | ok w h =>
      cases hd : decode w with
      | ok i =>
        simp only [hd]
        exact hu.endInstruction_alike (hu.exec_alike i h)
      | error e =>
        simp only [hd]
        exact .next h.resumeFetching
  · rw [step_not_fetching hr, step_not_fetching (h.run ▸ hr), h.run]
    exact .refused _

end Unread

/-! ### N, V and C -/

/-- A stop leaves the flags the step began with: an instruction sets them after its last read. -/
theorem flags_of_step_fault {s : State} {e : Fault} (h : step s = .fault e) : e.left.flags = s.flags := by
  obtain ⟨c, t, rfl, -, hframe⟩ := step_fault_frame h
  rw [FatalCause.left_fault, State.flags_setRun]
  obtain rfl | hframe := hframe
  · rfl
  · exact hframe.flags

theorem unread_nvc : Unread (fun f g => g.z = f.z) Eq where
  z := id
  set _ := rfl
  mov _ _ := rfl
  count k := congrArg k

theorem Alike.eq_setFlags {F : Flags → Flags → Prop} {s t : State} (h : Alike F Eq s t) : t = s.setFlags t.flags := by
  rw [State.setFlags, h.cnt]
  exact h.eq

/-- Settles O50: states that agree in Z and in the counters step alike, and a stop leaves the flags as they were. -/
theorem onlyZIsEverRead : Obligations.OnlyZIsEverRead := by
  unfold Obligations.OnlyZIsEverRead
  intro s f hz
  have hstep := unread_nvc.step_alike (s := s) (t := s.setFlags f) ⟨rfl, rfl, rfl, rfl, hz, rfl⟩
  refine ⟨fun t ht => ?next, fun e he => ?fault, fun r hr => ?refused⟩
  case next =>
    obtain ⟨u, hu, h⟩ := (ht ▸ hstep).of_next
    exact ⟨u.flags, hu.trans (congrArg _ h.eq_setFlags), h.flags⟩
  case fault =>
    obtain ⟨e', he', h⟩ := (he ▸ hstep).of_fault
    have hflags : e'.left.flags = f := flags_of_step_fault he'
    exact ⟨e', he', hflags ▸ h.eq_setFlags⟩
  case refused => exact (hr ▸ hstep).of_refused

/-! ### The counters -/

theorem unread_counters : Unread Eq (fun _ _ => True) where
  z h := congrArg Flags.z h.symm
  set _ := rfl
  mov v := congrArg (movFlags v)
  count _ := id

theorem Alike.eq_set_cnt {C : Counters → Counters → Prop} {s t : State} (h : Alike Eq C s t) :
    t = { s with cnt := t.cnt } := by
  rw [h.flags]
  exact h.eq

/-- Settles O51: states that agree in all but the counters step alike. -/
theorem countersControlNothing : Obligations.CountersControlNothing := by
  unfold Obligations.CountersControlNothing
  intro s c
  have hstep := unread_counters.step_alike (s := s) (t := { s with cnt := c }) ⟨rfl, rfl, rfl, rfl, rfl, trivial⟩
  refine ⟨fun t ht => ?next, fun e he => ?fault, fun r hr => ?refused⟩
  case next =>
    obtain ⟨u, hu, h⟩ := (ht ▸ hstep).of_next
    exact ⟨u.cnt, hu.trans (congrArg _ h.eq_set_cnt)⟩
  case fault =>
    obtain ⟨e', he', h⟩ := (he ▸ hstep).of_fault
    exact ⟨e', e'.left.cnt, he', h.eq_set_cnt⟩
  case refused => exact (hr ▸ hstep).of_refused

end Sys2Proof.Machine

/-! ## Words that are no instruction (30_encoding.md R80) -/

namespace Sys2Proof

/-- A mask of the top bits keeps its match value in an interval of words. -/
theorem and_eq_iff_interval {w m p : Word} (k : Nat) (hmask : (w &&& m).toNat = w.toNat / 2 ^ k * 2 ^ k)
    (hp : 2 ^ k ∣ p.toNat) : w &&& m = p ↔ p.toNat ≤ w.toNat ∧ w.toNat < p.toNat + 2 ^ k := by
  obtain ⟨c, hc⟩ := hp
  have hpos := Nat.two_pow_pos k
  rw [← BitVec.toNat_inj, hmask, hc, Nat.mul_comm, Nat.mul_right_inj hpos.ne', Nat.div_eq_iff hpos,
    Nat.mul_comm c]
  omega

section Intervals
variable {w p : Word}

theorem and_mask12_eq_iff (hp : 4096 ∣ p.toNat) :
    w &&& 0o170000 = p ↔ p.toNat ≤ w.toNat ∧ w.toNat < p.toNat + 4096 := and_eq_iff_interval 12 (and_mask12 w) hp

theorem and_mask9_eq_iff (hp : 512 ∣ p.toNat) :
    w &&& 0o177000 = p ↔ p.toNat ≤ w.toNat ∧ w.toNat < p.toNat + 512 := and_eq_iff_interval 9 (and_mask9 w) hp

theorem and_mask8_eq_iff (hp : 256 ∣ p.toNat) :
    w &&& 0o177400 = p ↔ p.toNat ≤ w.toNat ∧ w.toNat < p.toNat + 256 := and_eq_iff_interval 8 (and_mask8 w) hp

theorem and_mask6_eq_iff (hp : 64 ∣ p.toNat) :
    w &&& 0o177700 = p ↔ p.toNat ≤ w.toNat ∧ w.toNat < p.toNat + 64 := and_eq_iff_interval 6 (and_mask6 w) hp

end Intervals

/-- Settles O5: each row matches an interval of words, and the seven ranges are what the eleven intervals leave over. -/
theorem undefinedWordsAreTheSevenRanges : Obligations.UndefinedWordsAreTheSevenRanges := by
  unfold Obligations.UndefinedWordsAreTheSevenRanges
  intro w
  obtain ⟨-, -, -, -, -, -, -, -, -, -, -, hnoRow⟩ := decodeFollowsMaskAndMatch w
  have hzero : w = 0 ↔ w.toNat = 0 := BitVec.toNat_inj.symm
  rw [hnoRow]
  simp (disch := decide) only [ne_eq, and_mask16, hzero, and_mask12_eq_iff, and_mask9_eq_iff,
    and_mask8_eq_iff, and_mask6_eq_iff]
  bv_omega

end Sys2Proof

/-! ## The order of stops, and the counters of a completed step (60_exceptions.md R215, 40_execution_cycle.md R97) -/

namespace Sys2Proof.Machine

/-- Settles O40: each rule begins with the resolution of its source and goes on with that of its destination, and a stop
of an action stops what follows it. -/
theorem sourceStopsComeFirst : Obligations.SourceStopsComeFirst := by
  unfold Obligations.SourceStopsComeFirst
  intro src dst s t u c p i hi
  obtain rfl | hi := hi
  · refine ⟨fun hsrc => runRule_error (bind_error hsrc), fun hne => absurd rfl hne, fun _ hsrc htarget => ?_⟩
    have hput : putResult dst p.value t = .error c u := bind_error htarget
    exact runRule_error ((bind_ok hsrc).trans (bind_error hput))
  · have hmov : i ≠ .mov src dst := by obtain rfl | rfl | rfl := hi <;> nofun
    refine ⟨fun hsrc => ?_, fun _ hsrc hdst => ?_, fun h => absurd h hmov⟩
    · obtain rfl | rfl | rfl := hi <;> exact runRule_error (bind_error hsrc)
    · obtain rfl | rfl | rfl := hi <;> exact runRule_error ((bind_ok hsrc).trans (bind_error hdst))

/-- Settles O43: the fetch of the instruction word is counted before the rule, which counts its index words. -/
theorem fetchesAreCounted : Obligations.FetchesAreCounted := by
  unfold Obligations.FetchesAreCounted
  intro s t h
  refine ⟨fun i hi => ?_, fun hi => ?_⟩
  · rw [cnt_of_step_next_of_instruction h hi]
    rfl
  · rw [cnt_of_step_next_of_no_instruction h hi]
    rfl

/-- Settles O52: a completed step leaves each counter as it was with something added. -/
theorem countersNeverDecrease : Obligations.CountersNeverDecrease := by
  unfold Obligations.CountersNeverDecrease
  intro s t h
  obtain ⟨-, hcnt⟩ | ⟨i, -, hcnt⟩ := cnt_of_step_next h
  · rw [hcnt]
    exact ⟨le_rfl, Nat.le_add_right _ _, le_rfl, le_rfl, le_rfl, le_rfl⟩
  · rw [hcnt]
    exact ⟨Nat.le_add_right _ _, (Nat.le_add_right _ 1).trans (Nat.le_add_right _ _), Nat.le_add_right _ _,
      Nat.le_add_right _ _, Nat.le_add_right _ _, Nat.le_add_right _ _⟩

end Sys2Proof.Machine

/-! ## The PC past the instruction's words (30_encoding.md R79, 40_execution_cycle.md R95) -/

namespace Sys2Proof.Machine

section Pc
variable {src dst : Operand} {r : Reg} {s t : State} {i : Instr}

@[simp] theorem x_resumeFetching (s : State) (r : Reg) : (resumeFetching s).x r = s.x r := by
  obtain h | ⟨-, h⟩ := resumeFetching_eq s <;> simp [h]

/-- Writing the destination changes no register beyond its resolution, unless it is that register. -/
theorem x_of_resolve_updateOperand {alu : Word → AluResult} (hr : ¬(dst.mode = .register ∧ dst.reg = r))
    (h : (do
      let p ← resolve dst
      update (fun u => u.setFlags (alu p.value).flags)
      updateOperand p (alu p.value).r) s = .ok () t) : t.x r = (s.afterOperand dst).x r := by
  obtain ⟨a, u, ha, hu, -⟩ | ⟨c, u, -, herr, -⟩ := resolve_cases dst s
  · cases (resolve_updateOperand_of_operandValue ha hu).symm.trans h
    exact State.x_afterStore_ne _ hr
  · cases (bind_error herr).symm.trans h

/-- What is no branch has, in every register but its destination, what the resolution of its operands left there. -/
theorem x_of_exec_next (hi : i.isBranch = false)
    (hr : ∀ d, i.destination = some d → ¬(d.mode = .register ∧ d.reg = r)) (h : exec i s = .next t) :
    t.x r = (i.operands.foldl State.afterOperand s).x r := by
  cases i with
  | sob | br | bne | beq => cases hi
  | halt =>
    cases (exec_halt_eq_next s).symm.trans h
    rfl
  | mov src dst =>
    obtain ⟨a, v, -, rfl⟩ := exec_mov_next h
    exact State.x_afterStore_ne _ (hr dst rfl)
  | cmp src dst =>
    obtain ⟨f, rfl⟩ := exec_cmp_next h
    rfl
  | add src dst =>
    obtain ⟨_, v, -, hdst⟩ := rest_of_resolve_bind_ok (runRule_eq_next.mp h)
    exact x_of_resolve_updateOperand (alu := aluAdd v) (hr dst rfl) hdst
  | sub src dst =>
    obtain ⟨_, v, -, hdst⟩ := rest_of_resolve_bind_ok (runRule_eq_next.mp h)
    exact x_of_resolve_updateOperand (alu := fun d => aluSub d v) (hr dst rfl) hdst
  | asr dst => exact x_of_resolve_updateOperand (alu := aluAsr) (hr dst rfl) (runRule_eq_next.mp h)
  | asl dst => exact x_of_resolve_updateOperand (alu := aluAsl) (hr dst rfl) (runRule_eq_next.mp h)

/-- The resolution of an operand moves the PC past its extension word, if it has one. -/
theorem State.pc_afterOperand {o : Operand} (s : State)
    (ho : ¬(o.reg = .r7 ∧ (o.mode = .autoDec ∨ o.mode = .autoDecIndirect))) :
    (s.afterOperand o).pc = s.pc + if o.hasExtension then 2 else 0 := by
  obtain ⟨m, r⟩ := o
  cases m with
  | register | indirect => exact (BitVec.add_zero _).symm
  | index | indexDeferred => rfl
  | autoInc | autoIncIndirect =>
    by_cases hr : r = .r7
    · subst hr
      rfl
    · rw [if_neg (by simp [Operand.hasExtension, hr])]
      exact (RegFile.get_set_ne _ _ (Ne.symm hr)).trans (BitVec.add_zero _).symm
  | autoDec | autoDecIndirect =>
    have hr : r ≠ .r7 := fun hr => ho ⟨hr, by simp⟩
    exact (RegFile.get_set_ne _ _ (Ne.symm hr)).trans (BitVec.add_zero _).symm

theorem State.pc_foldl_afterOperand (operands : List Operand) (s : State)
    (ho : ∀ o ∈ operands, ¬(o.reg = .r7 ∧ (o.mode = .autoDec ∨ o.mode = .autoDecIndirect))) :
    (operands.foldl State.afterOperand s).pc = s.pc + BitVec.ofNat 16 (2 * operands.countP Operand.hasExtension) := by
  induction operands generalizing s with
  | nil => exact (BitVec.add_zero _).symm
  | cons o rest ih =>
    obtain ⟨ho, hrest⟩ := List.forall_mem_cons.mp ho
    rw [List.foldl_cons, ih _ hrest, s.pc_afterOperand ho, List.countP_cons, add_assoc]
    split
    · rw [Nat.mul_add, BitVec.ofNat_add, add_comm (2 : Word)]
      rfl
    · rw [Nat.add_zero, zero_add]

end Pc

/-- Settles O46: the fetch moves the PC past the instruction word, and each operand past its extension word. -/
theorem pcEndsPastTheInstructionsWords : Obligations.PcEndsPastTheInstructionsWords := by
  unfold Obligations.PcEndsPastTheInstructionsWords
  intro s t i h hi hbranch hoperands hdst
  have hfetching : s.run = .fetching := run_of_step_ne_refused (by simp [h])
  obtain ⟨c, -, -, hstop⟩ | ⟨w, j, hw, hd, hexec⟩ | ⟨w, e, hw, hd, -⟩ := step_cases hfetching
  · cases hstop.symm.trans h
  · cases (State.current_of_decode_ok hw hd).symm.trans hi
    obtain ⟨u, hu, rfl⟩ := endInstruction_eq_next.mp (hexec.symm.trans h)
    calc (resumeFetching u.countInst).pc
      _ = u.pc := x_resumeFetching _ _
      _ = (i.operands.foldl State.afterOperand s.fetched).pc := x_of_exec_next hbranch hdst hu
      _ = s.pc + 2 + BitVec.ofNat 16 (2 * i.operands.countP Operand.hasExtension) :=
        s.fetched.pc_foldl_afterOperand i.operands hoperands
      _ = s.pc + BitVec.ofNat 16 (2 * i.lengthWords) := by
        rw [Instr.lengthWords, Nat.mul_add, BitVec.ofNat_add, add_assoc]
        rfl
  · cases (State.current_of_decode_error hw hd).symm.trans hi

end Sys2Proof.Machine

/-! ## The events of a step (60_exceptions.md R211 to R215) -/

namespace Sys2Proof.Machine

/-- Settles O39: it sets the run state of the state its fault carries. -/
theorem raiseFatalRecordsTheCause : Obligations.RaiseFatalRecordsTheCause := by
  unfold Obligations.RaiseFatalRecordsTheCause
  intro c s
  refine ⟨_, rfl, FatalCause.left_fault c _, ?_⟩
  rw [FatalCause.left_fault]
  rfl

section Events
variable {s t : State} {w : Word}

theorem stepEvent_of_halt (hs : step s = .next t) (hw : s.wordAt s.pc = some w) (hd : decode w = .ok .halt) :
    stepEvent s = some (.halt s.pc) := by
  simp only [stepEvent, hs, beginStep_ok hw, hd]
  rfl

theorem stepEvent_of_decodeError {e : DecodeError} (hs : step s = .next t) (hw : s.wordAt s.pc = some w)
    (hd : decode w = .error e) : stepEvent s = some (.decodeError w s.pc) := by
  simp only [stepEvent, hs, beginStep_ok hw, hd]
  rfl

theorem stepEvent_of_fault {f : Fault} (hs : step s = .fault f) :
    stepEvent s = f.left.fatalRecord.map Event.fatal := by
  simp only [stepEvent, hs]

end Events

/-- Settles O59: a step on the word 0 or on a word that is no instruction completes and raises its event, and a stop
records one of two causes, each with a fault and a code of its own. -/
theorem eventsCarryTheirCodes : Obligations.EventsCarryTheirCodes := by
  unfold Obligations.EventsCarryTheirCodes
  intro s
  refine ⟨fun hr hw => ⟨?halt, rfl⟩, fun w hr hw hd => ⟨?decodeError, rfl⟩, fun f hf => ?stop⟩
  case halt =>
    have hd : decode 0 = .ok .halt := decode_eq_halt_iff.mpr rfl
    have hstep := step_of_decode_ok hr hw hd
    rw [exec_halt_eq_next, endInstruction_next] at hstep
    exact stepEvent_of_halt hstep hw hd
  case decodeError => exact stepEvent_of_decodeError (step_of_decode_error hr hw hd) hw hd
  case stop =>
    have hevent := stepEvent_of_fault hf
    obtain ⟨c, t, rfl, hc, -⟩ := step_fault_frame hf
    rw [FatalCause.left_fault] at hevent ⊢
    refine ⟨⟨c, s.pc⟩, rfl, hevent, rfl, ?_⟩
    obtain ⟨a, kind, rfl, -⟩ | ⟨a, rfl, -⟩ := hc
    · exact ⟨.inl rfl, iff_of_true rfl rfl, iff_of_false nofun nofun⟩
    · exact ⟨.inr rfl, iff_of_false nofun nofun, iff_of_true rfl rfl⟩

/-- Settles O57: a bit of a concatenation is a bit of the part it falls in. -/
theorem ccHoldsTheFlagsInOrder : Obligations.CcHoldsTheFlagsInOrder := by
  unfold Obligations.CcHoldsTheFlagsInOrder
  intro s
  simp only [State.cc, Flags.cc, BitVec.getLsbD_append, BitVec.getLsbD_ofBool]
  simp

end Sys2Proof.Machine

/-! ## A destination without a value (41_operand_resolver.md R122), and branch targets (45_branches.md R171) -/

namespace Sys2Proof.Machine

/-- Settles O13: the operand has an address, and no value; put_result needs the address alone. -/
theorem preReadOfADestinationNeedsNoValue : Obligations.PreReadOfADestinationNeedsNoValue := by
  unfold Obligations.PreReadOfADestinationNeedsNoValue
  intro r s v heven hnone
  refine ⟨?resolve, ?putResult⟩
  case resolve =>
    have hread : dataRead .dataRead (s.x r) s = .error (.uninitRead (s.x r)) s := by
      simp [dataRead, bind_apply, memRead_apply, heven, hnone, useValue]
    have haddr : resolveAddr ⟨.indirect, r⟩ s = .ok (s.x r) s := rfl
    rw [resolve, bind_ok haddr]
    exact bind_error hread
  case putResult =>
    have hstore : s.storeAddr ⟨.indirect, r⟩ = some (s.x r) := by simp [State.storeAddr, State.operandAddr, heven]
    obtain ⟨a, ha, hok⟩ | ⟨c, t, hnone, -⟩ := putResult_cases ⟨.indirect, r⟩ v s
    · cases ha.symm.trans hstore
      exact hok
    · cases hnone.symm.trans hstore

/-! ### The parity of a branch target (45_branches.md R178) -/

theorem isOdd_add_ofInt_two_mul (a : Word) (k : Int) : isOdd (a + BitVec.ofInt 16 (2 * k)) = isOdd a := by
  have hmod : (a + BitVec.ofInt 16 (2 * k)).toNat % 2 = a.toNat % 2 := by
    rw [BitVec.toNat_add, BitVec.toNat_ofInt]
    omega
  rw [isOdd_eq, isOdd_eq, hmod]

/-- A conditional branch leaves the PC or moves it by twice the offset. -/
theorem pc_of_branchOrSkip_next {rule : Action Unit} {p : Prop} [Decidable p] {offset : Int} {s t : State}
    (hrule : rule s = (if p then branchTo offset else pure ()) s.countBr) (h : runRule rule s = .next t) :
    t.pc = s.pc ∨ t.pc = s.pc + BitVec.ofInt 16 (2 * offset) := by
  by_cases hp : p
  · cases (runRule_of_branch_taken hrule hp).symm.trans h
    exact .inr (s.x_setX_self .r7 _)
  · cases (runRule_of_branch_not_taken hrule hp).symm.trans h
    exact .inl rfl

theorem pc_of_branch_next {offset : Int} {s t : State} {i : Instr}
    (hi : i = .br offset ∨ i = .bne offset ∨ i = .beq offset) (h : exec i s = .next t) :
    t.pc = s.pc ∨ t.pc = s.pc + BitVec.ofInt 16 (2 * offset) := by
  obtain rfl | rfl | rfl := hi
  · cases (brMovesThePc offset s).symm.trans h
    exact .inr (s.x_setX_self .r7 _)
  · exact pc_of_branchOrSkip_next (bneRule_apply offset s) h
  · exact pc_of_branchOrSkip_next (beqRule_apply offset s) h

/-- Settles O29: twice the offset is even, also reduced to a Word. -/
theorem branchesKeepThePcParity : Obligations.BranchesKeepThePcParity := by
  unfold Obligations.BranchesKeepThePcParity
  intro offset s t i hi h
  obtain hpc | hpc := pc_of_branch_next hi h
  · rw [hpc]
  · rw [hpc, isOdd_add_ofInt_two_mul]

end Sys2Proof.Machine

/-! ## The launch (70_reset_and_hazards.md R240, R243) -/

namespace Sys2Proof.Machine

section Memory
variable {m : Memory} {cells : List MemCell} {words : List Word} {k n : Nat} {v : Word}

/-! ### The supplied words -/

theorem get_supplyWords_of_not_mem (h : ∀ c ∈ cells, c.1 ≠ k) : (supplyWords cells m).get k = m.get k := by
  induction cells generalizing m with
  | nil => rfl
  | cons c rest ih =>
    obtain ⟨hc, hrest⟩ := List.forall_mem_cons.mp h
    exact (ih hrest).trans (Memory.get_put_ne m c.2 hc.symm)

theorem get_supplyWords_of_mem (hnodup : (cells.map Prod.fst).Nodup) (h : (k, v) ∈ cells) :
    (supplyWords cells m).get k = some v := by
  induction cells generalizing m with
  | nil => cases h
  | cons c rest ih =>
    rw [List.map_cons, List.nodup_cons] at hnodup
    obtain ⟨hc, hnodup⟩ := hnodup
    obtain rfl | h := List.mem_cons.mp h
    · have hrest : ∀ c ∈ rest, c.1 ≠ k := fun c hmem hk =>
        hc (hk ▸ List.mem_map.mpr ⟨c, hmem, rfl⟩)
      exact (get_supplyWords_of_not_mem hrest).trans (Memory.get_put_self m k v)
    · exact ih hnodup h

theorem wf_supplyWords (hm : m.wf = true) (h : ∀ c ∈ cells, c.1 < Config.memWords) :
    (supplyWords cells m).wf = true := by
  induction cells generalizing m with
  | nil => exact hm
  | cons c rest ih =>
    obtain ⟨hc, hrest⟩ := List.forall_mem_cons.mp h
    exact ih (Memory.wf_put c.2 hc hm) hrest

/-! ### The image -/

theorem get_placeImage_of_not_mem (h : k < n ∨ n + words.length ≤ k) : (placeImage n words m).get k = m.get k := by
  induction words generalizing n m with
  | nil => rfl
  | cons w rest ih =>
    rw [List.length_cons] at h
    exact (ih (by omega)).trans (Memory.get_put_ne m w (by omega))

theorem get_placeImage_of_getElem? (h : words[k]? = some v) : (placeImage n words m).get (n + k) = some v := by
  induction words generalizing n k m with
  | nil => cases h
  | cons w rest ih =>
    cases k with
    | zero =>
      cases h
      exact (get_placeImage_of_not_mem (.inl n.lt_succ_self)).trans (Memory.get_put_self m n _)
    | succ k =>
      rw [← Nat.succ_add_eq_add_succ]
      exact ih h

theorem wf_placeImage (hm : m.wf = true) (h : n + words.length ≤ Config.memWords) :
    (placeImage n words m).wf = true := by
  induction words generalizing n m with
  | nil => exact hm
  | cons w rest ih =>
    rw [List.length_cons] at h
    exact ih (Memory.wf_put w (by omega) hm) (by omega)

end Memory

/-! ### The state a launch leaves -/

theorem accepted_iff (p : Launch) :
    p.accepted = true ↔ p.image.length ≤ 32768 ∧ ∀ c ∈ p.initMem, c.1 < 32768 := by
  simp only [Launch.accepted, Bool.and_eq_true, decide_eq_true_eq, List.all_eq_true]
  rfl

/-- Settles O55: an accepted launch puts the supplied words into empty memory and then the image's over them. -/
theorem launchSetsEveryPieceOfState : Obligations.LaunchSetsEveryPieceOfState := by
  unfold Obligations.LaunchSetsEveryPieceOfState
  intro p
  refine ⟨fun himage hinit => ?accepted, fun hlong => ?refused⟩
  case accepted =>
    have hwf : Memory.wf (placeImage 0 p.image (supplyWords p.initMem [])) = true :=
      wf_placeImage (wf_supplyWords rfl hinit) ((Nat.zero_add _).trans_le himage)
    have hbehind : ∀ k, p.image.length ≤ k →
        (placeImage 0 p.image (supplyWords p.initMem [])).get k = (supplyWords p.initMem []).get k :=
      fun k hk => get_placeImage_of_not_mem (.inr ((Nat.zero_add _).trans_le hk))
    refine ⟨_, if_pos ((accepted_iff p).mpr ⟨himage, hinit⟩), rfl, rfl, rfl, rfl, rfl, rfl, rfl, rfl, rfl, rfl, rfl,
      ⟨hwf, rfl⟩, fun k v hk => ?image, fun k v hk hnodup hmem => ?supplied, fun k hk hnone => ?elsewhere⟩
    case image => exact Nat.zero_add k ▸ get_placeImage_of_getElem? hk
    case supplied => exact (hbehind k hk).trans (get_supplyWords_of_mem hnodup hmem)
    case elsewhere => exact (hbehind k hk).trans (get_supplyWords_of_not_mem hnone)
  case refused => exact if_neg fun h => absurd ((accepted_iff p).mp h).1 (Nat.not_le.mpr hlong)

/-- Settles O56: with no image and no supplied word, memory stays empty. -/
theorem resetIsTheLaunchWithoutAnImage : Obligations.ResetIsTheLaunchWithoutAnImage := by
  unfold Obligations.ResetIsTheLaunchWithoutAnImage
  exact ⟨rfl, rfl, rfl, rfl, Memory.get_nil⟩

end Sys2Proof.Machine
